-- ==== Sys2Proof/Word.lean ====
section
/-! DEFINITION. The word types of the block: every register and every address is an unsigned 32-bit number
(00_scope.md R4 and R6). -/

namespace Sys2Proof

/-- A register value, an address or an instruction word: 32 bits (`XLEN`, `PALEN`, `ILEN` of 00_scope.md R4). -/
abbrev Word := BitVec 32

/-- The smallest addressable unit, 8 bits (00_scope.md R4). -/
abbrev Byte := BitVec 8

/-- A register index: a 5-bit field (30_encoding.md R61), so 0 to 31. -/
abbrev RegIdx := BitVec 5

/-- A 16-bit immediate (30_encoding.md R64). -/
abbrev Imm16 := BitVec 16

/-- Every register index names one of the 32 registers (10_state.md R14). -/
theorem regIdx_lt (i : RegIdx) : i.toNat < 32 := i.isLt

end Sys2Proof
end

