-- ==== Sys2Proof/Config.lean ====
section
/-! DEFINITION. The configuration record of 00_scope.md R5: what one machine fixes and the source leaves open.
The image, the one parameter that is a long byte sequence, is an argument of `construct`. -/

namespace Sys2Proof

/-- The classes of device. The BIOS read-only memory is the only one of this hardware (20_memory.md R34). -/
inductive DeviceKind
  | rom
  deriving DecidableEq, Repr

/-- One row of the device table: a device owns the byte range `[base, base+size)` (20_memory.md R31). -/
structure Device where
  base : Word
  size : Nat
  kind : DeviceKind
  deriving DecidableEq, Repr

/-- The parameters of 00_scope.md R5 but for the image. The source calls each of them fixed and prints no number
(decision D10), so no rule of the model depends on a value of one. -/
structure Cfg where
  /-- `RESET_VECTOR`. -/
  resetVector : Word
  /-- `SP_INIT`. -/
  spInit : Word
  /-- `BIOS_BASE`. -/
  biosBase : Word
  /-- `BIOS_SIZE`, in bytes. -/
  biosSize : Nat
  deriving DecidableEq, Repr

/-- `DEVICES`: in this hardware exactly one entry, `(BIOS_BASE, BIOS_SIZE, ROM)` (00_scope.md R5). -/
def Cfg.devices (c : Cfg) : List Device :=
  [{ base := c.biosBase, size := c.biosSize, kind := .rom }]

/-- The constraint of 00_scope.md R5 that makes a configuration one of this hardware: the reset vector is the first
byte of the BIOS. A configuration that breaks it still has a meaning (70_reset_and_hazards.md R134). -/
def Cfg.thisHardware (c : Cfg) : Bool := c.resetVector == c.biosBase

/-- The configuration of `State.reset` alone.
PRESUMED (log 10): the reset vector, base and size are the customary numbers 00_scope.md R5 offers for runners. Unsafe.
DESIGN CHOICE (log 11): the spec offers no `SP_INIT`; this one is a number other than zero, as R4 asks. Unsafe. -/
def Config.runner : Cfg :=
  { resetVector := 0xBFC00000#32, spInit := 0x801FFF00#32, biosBase := 0xBFC00000#32, biosSize := 0x80000 }

/-- What a byte that the memory's list does not name reads as.
DESIGN CHOICE (log 12): zero. For a machine made by `construct` this is a way of writing the image down and nothing
else, since every image byte that is not zero is listed. Unsafe for `State.reset`, which has no image. -/
def Config.unlistedByte : Byte := 0#8

end Sys2Proof
end

