-- ==== Sys2Proof/Syntax.lean ====
section
/-! DEFINITION. The instructions: the one row of the opcode table (30_encoding.md R65). -/

namespace Sys2Proof

/-- One constructor for each row of spec/opcode_table.json. -/
inductive Instr
  /-- `lui $rt, imm16` (41_lui.md R90). `rs` holds bits 25:21 of the word: no rule reads them (30_encoding.md R66),
  and the constructor keeps them so that decoding drops no bit. -/
  | lui (rs : RegIdx) (rt : RegIdx) (imm16 : Imm16)
  deriving DecidableEq, Repr

end Sys2Proof
end

