-- ==== Sys2Proof/WellFormed.lean ====
section
/-! DEFINITION. The checks made on data before a machine runs: on an instruction (nothing is left to check, its fields
have exact widths) and on a device table (20_memory.md R36). -/

namespace Sys2Proof

/-- Every term is an instruction: `rs`, `rt` and `imm16` take every value of their widths (30_encoding.md R61, R66). -/
def Instr.wellFormed : Instr → Bool
  | .lui _ _ _ => true

/-- Condition 1 of 20_memory.md R36: `size >= 1`. -/
def Device.nonEmpty (d : Device) : Bool := decide (1 ≤ d.size)

/-- Condition 2 of 20_memory.md R36: `base + size <= 2^32` in unbounded integers. -/
def Device.insideSpace (d : Device) : Bool := decide (d.base.toNat + d.size ≤ 2 ^ 32)

/-- Condition 3 of 20_memory.md R36 for two devices. -/
def Device.disjoint (a b : Device) : Bool :=
  decide (a.base.toNat + a.size ≤ b.base.toNat) || decide (b.base.toNat + b.size ≤ a.base.toNat)

/-- Condition 3 of 20_memory.md R36: the ranges do not overlap, pair by pair. -/
def disjointTable : List Device → Bool
  | [] => true
  | d :: ds => ds.all d.disjoint && disjointTable ds

/-- A legal device table (20_memory.md R36, decisions D11 and D12). -/
def legalTable (ds : List Device) : Bool :=
  ds.all Device.nonEmpty && ds.all Device.insideSpace && disjointTable ds

end Sys2Proof
end

