-- ==== Sys2Proof/Decode.lean ====
section
/-! DEFINITION. Field extraction, decoding, and the encoder. The positions of `rs`, `rt` and `imm16` are the standard
MIPS ones, the spec's decision D1 (PRESUMED, log 2, unsafe): they stand in `decodeFields` and `encode` only. -/

namespace Sys2Proof

/-- The four fields of format `I`, which partition the word (30_encoding.md R61 and R63). -/
structure Fields where
  op : BitVec 6
  rs : RegIdx
  rt : RegIdx
  imm16 : Imm16
  deriving DecidableEq, Repr

/-- `decode(w)` of 30_encoding.md R62: pure and total. -/
def decodeFields (w : Word) : Fields :=
  { op := w.extractLsb' 26 6, rs := w.extractLsb' 21 5, rt := w.extractLsb' 16 5, imm16 := w.extractLsb' 0 16 }

/-- The primary opcode of `LUI` (30_encoding.md R65). -/
def luiOpcode : BitVec 6 := 0b001111#6

/-- Why bytes are no instruction. -/
inductive DecodeReject
  /-- The primary opcode is none of the map's (30_encoding.md R67); carries the raw word. Safe: a step that meets it
  takes the fatal condition UnhandledInstruction, as the spec says. -/
  | unhandledInstruction (w : Word)
  /-- Fewer than the 4 bytes of an instruction (30_encoding.md R60). Safe: a fetched word always has 4. -/
  | tooFewBytes (n : Nat)
  deriving DecidableEq, Repr

/-- The instruction a word stands for: the opcode map of 30_encoding.md R65, on the primary opcode alone. -/
def decodeInstr (w : Word) : Except DecodeReject Instr :=
  let f := decodeFields w
  if f.op = luiOpcode then .ok (.lui f.rs f.rt f.imm16) else .error (.unhandledInstruction w)

/-- Four bytes, lowest address first, as a little-endian word (20_memory.md R41). -/
def wordOfBytes (b0 b1 b2 b3 : Byte) : Word := b3 ++ b2 ++ b1 ++ b0

/-- The bytes of a word, lowest address first (20_memory.md R41, 30_encoding.md R63). -/
def bytesOfWord (w : Word) : List Byte :=
  [w.extractLsb' 0 8, w.extractLsb' 8 8, w.extractLsb' 16 8, w.extractLsb' 24 8]

/-- The first instruction of a byte sequence and the bytes after it. Every instruction is 4 bytes (30_encoding.md
R60). -/
def decodeBytes : List Byte → Except DecodeReject (Instr × List Byte)
  | b0 :: b1 :: b2 :: b3 :: rest =>
    match decodeInstr (wordOfBytes b0 b1 b2 b3) with
    | .ok i => .ok (i, rest)
    | .error e => .error e
  | short => .error (.tooFewBytes short.length)

/-- The word of an instruction, written from 30_encoding.md R63: `op ‖ rs ‖ rt ‖ imm16`. -/
def encode : Instr → Word
  | .lui rs rt imm16 => luiOpcode ++ rs ++ rt ++ imm16

/-- The bytes of an instruction, lowest address first. -/
def encodeBytes (i : Instr) : List Byte := bytesOfWord (encode i)

/-- `lui $rt, imm16` as an assembler writes it: `rs = 0` (30_encoding.md R70). -/
def assembleLui (rt : RegIdx) (imm16 : Imm16) : Word := encode (.lui 0#5 rt imm16)

/-- The instruction the decoder reads from an instruction whose table bits are `w`: the word is laid out as the
hardware stores it and given to `decodeBytes`. An instruction has 32 bits, so a longer one is none. -/
def decodeTableWord (nbits w : Nat) : Option Instr :=
  if 32 < nbits then none
  else
    match decodeBytes (bytesOfWord (BitVec.ofNat 32 (w % 2 ^ nbits))) with
    | .ok (i, _) => some i
    | .error _ => none

end Sys2Proof
end

