-- ==== Sys2Proof/Machine/State.lean ====
section
/-! DEFINITION. The state of the block as plain data (10_state.md R24), the reasons a step or a construction can stop,
and the state after reset (10_state.md R23). -/

namespace Sys2Proof.Machine

/-- Bytes by address, addresses strictly rising, no byte listed that equals `Config.unlistedByte`. -/
abbrev Memory := List Host.Cell

/-- `fault_kind` (10_state.md R19), 3 bits whose codes are given by `faultCode`: 6 and 7 never occur, so the type has no
constructor for them. -/
inductive FaultKind
  | none
  | unmappedAddress
  | misalignedFetch
  | outOfBounds
  | unhandledInstruction
  | corruptImage
  deriving DecidableEq, Repr

/-- The whole state of the block (10_state.md R24): the tuple `(pc, regs, halted, fault_kind, fault_value, fault_addr)`,
the constant `rom`, and the constant configuration (DESIGN CHOICE, log 1, safe: it is no state of the spec, 10_state.md
R21; no step changes it). -/
structure State where
  /-- Address of the next instruction to fetch (10_state.md R11). -/
  pc : Word
  /-- The 32 general registers (10_state.md R14); read and written through `readReg` and `writeReg` only. -/
  regs : Vector Word 32
  /-- The run state (10_state.md R19). -/
  halted : Bool
  /-- The fault record (10_state.md R19). -/
  faultKind : FaultKind
  faultValue : Word
  faultAddr : Word
  /-- The BIOS bytes: `rom[k]` of 10_state.md R20 is the byte at address `BIOS_BASE + k` (log 13). -/
  rom : Memory
  /-- The parameters of the run (00_scope.md R5). -/
  cfg : Cfg
  deriving DecidableEq, Repr

/-- A fatal condition of a running machine with what it reports (60_exceptions.md R101 to R104). -/
inductive FatalCondition
  | unmappedAddress (addr : Word)
  | misalignedFetch (addr : Word)
  | outOfBounds (addr : Word)
  | unhandledInstruction (w : Word) (addr : Word)
  deriving DecidableEq, Repr

/-- What the Interconnect answers when a request fails (20_memory.md R52). -/
inductive BusFault
  | unmappedAddress (addr : Word)
  | outOfBounds (addr : Word)
  deriving DecidableEq, Repr

/-- The ways a step can end the run: the four run-time fatal conditions of 60_exceptions.md R100. Each carries the
HALTED STATE it leaves, fault record included (60_exceptions.md R106 and R110), from which the host can observe and
reset the block (DEDUCED from 00_scope.md R8, log 7). -/
inductive Fault
  /-- Raised by the Interconnect during the fetch (R101). Safe: the spec's own fault. -/
  | unmappedAddress (after : State)
  /-- Raised by the core before the fetch (R102). Safe: the spec's own fault. -/
  | misalignedFetch (after : State)
  /-- Raised by the device during the fetch (R103). Safe: the spec's own fault. -/
  | outOfBounds (after : State)
  /-- Raised by the core at dispatch (R104). Safe: the spec's own fault. -/
  | unhandledInstruction (after : State)
  deriving DecidableEq, Repr

/-- What is refused. -/
inductive Refusal
  /-- Raised by `exec` for an instruction without a meaning. No instruction of this model is one. Safe. -/
  | notModelled (mnemonic : String)
  /-- Raised by `construct`: the image has `len` bytes and not `BIOS_SIZE` (60_exceptions.md R105). Safe: the spec's own
  refusal. -/
  | corruptImage (len : Nat)
  /-- Raised by `construct`: the device table is not legal (70_reset_and_hazards.md R134). Safe: the spec's own
  refusal. -/
  | badDeviceTable
  /-- Raised by `memWrite`: there is no store in this hardware (20_memory.md R47). Safe: no step asks for one. -/
  | noStoreOperation
  /-- Raised by `memRead` at `n` bytes other than 4: that access does not exist (20_memory.md R46). Safe: no step asks
  for one. -/
  | noSuchAccessWidth (n : Nat)
  deriving DecidableEq, Repr

/-- What a step, a cycle or a construction answers. -/
abbrev StepOutcome := Host.Outcome State Fault Refusal

/-- The state after reset for a configuration and ROM contents (10_state.md R23). -/
def State.resetWith (cfg : Cfg) (rom : Memory) : State :=
  { pc := cfg.resetVector
    regs := (Vector.replicate 32 0#32).set 29 cfg.spInit
    halted := false
    faultKind := .none
    faultValue := 0#32
    faultAddr := 0#32
    rom := rom
    cfg := cfg }

/-- The machine right after reset under the runner's configuration, with nothing listed in the ROM (log 10 to 12). -/
def State.reset : State := State.resetWith Config.runner []

end Sys2Proof.Machine
end

