-- ==== Sys2Proof/Machine/Memory.lean ====
section
/-! DEFINITION. Bytes by address as a list in one canonical form, and how an image fills it. -/

namespace Sys2Proof.Machine

/-- The byte at address `a`. -/
def readByte : Memory → Nat → Byte
  | [], _ => Config.unlistedByte
  | (k, b) :: m, a => if k = a then b else readByte m a

/-- `m` with the byte at `a` set to `v`, in canonical form. It is the loader's operation (log 12): no instruction
stores (20_memory.md R47). -/
def setByte : Memory → Nat → Byte → Memory
  | [], a, v => if v = Config.unlistedByte then [] else [(a, v)]
  | (k, b) :: m, a, v =>
    if a < k then (if v = Config.unlistedByte then (k, b) :: m else (a, v) :: (k, b) :: m)
    else if a = k then (if v = Config.unlistedByte then m else (a, v) :: m)
    else (k, b) :: setByte m a v

/-- The canonical form: addresses strictly rising, and no entry equal to what an unlisted address reads as. -/
def memoryWf : Memory → Bool
  | [] => true
  | (k, b) :: m => m.all (fun c => decide (k < c.1)) && b != Config.unlistedByte && memoryWf m

/-- The canonical form under the name the check of the model uses. -/
abbrev Memory.wf (m : Memory) : Bool := memoryWf m

/-- The ROM of an image whose first byte lies at `base` (70_reset_and_hazards.md R133: `rom[k] := IMAGE[k]`). -/
def memoryOfImage : Nat → List Byte → Memory
  | _, [] => []
  | base, b :: image =>
    if b = Config.unlistedByte then memoryOfImage (base + 1) image
    else (base, b) :: memoryOfImage (base + 1) image

/-- Every listed byte lies in `[lo, hi)`. -/
def memoryWithin (m : Memory) (lo hi : Nat) : Bool := m.all (fun c => decide (lo ≤ c.1) && decide (c.1 < hi))

/-- `m` with consecutive bytes from `a` upward set. -/
def setBytes : Memory → Nat → List Byte → Memory
  | m, _, [] => m
  | m, a, b :: bs => setBytes (setByte m a b) (a + 1) bs

end Sys2Proof.Machine
end

