-- ==== Sys2Proof/Machine/Interconnect.lean ====
section
/-! DEFINITION. The device load and the Interconnect (20_memory.md sections 2 and 3), over any device table. -/

namespace Sys2Proof.Machine

/-- Containment (20_memory.md R37), in unbounded integers: the subtraction is looked at only when it cannot wrap. -/
def contains (d : Device) (addr : Word) : Bool :=
  decide (d.base.toNat ≤ addr.toNat) && decide (addr.toNat - d.base.toNat < d.size)

/-- Routing (20_memory.md R38): the first device whose range contains the address. -/
def route (ds : List Device) (addr : Word) : Option Device := ds.find? (contains · addr)

/-- The device-local offset `addr - base` (20_memory.md R38). -/
def deviceOffset (d : Device) (addr : Word) : Word := addr - d.base

/-- The byte `store_d[k]` of a device (20_memory.md R32); the store's bytes stand in the one memory list at the
addresses of the device's range (log 13). -/
def storeByte (rom : Memory) (d : Device) (k : Nat) : Byte := readByte rom (d.base.toNat + k)

/-- `DevLoad32(d, off)` (20_memory.md R33): `none` is the out-of-bounds answer. The sum is taken in unbounded integers,
and the alignment of `off` is not tested (R43). -/
def devLoad32 (rom : Memory) (d : Device) (off : Word) : Option Word :=
  match d.kind with
  | .rom =>
    if d.size < off.toNat + 4 then none
    else
      some (wordOfBytes (storeByte rom d off.toNat) (storeByte rom d (off.toNat + 1))
        (storeByte rom d (off.toNat + 2)) (storeByte rom d (off.toNat + 3)))

/-- `Load32(addr)` (20_memory.md R40), the only operation of the Interconnect. An out-of-bounds answer carries the
absolute address (decision D20, log 19). -/
def load32 (ds : List Device) (rom : Memory) (addr : Word) : Except BusFault Word :=
  match route ds addr with
  | none => .error (.unmappedAddress addr)
  | some d =>
    match devLoad32 rom d (deviceOffset d addr) with
    | some w => .ok w
    | none => .error (.outOfBounds addr)

end Sys2Proof.Machine
end

