-- ==== Sys2Proof/Machine/Ops.lean ====
section
/-! DEFINITION. The named operations over the state: registers, `pc`, the memory primitives of 00_scope.md R7, raising a
fatal condition (60_exceptions.md R106), and the fetch (40_fetch_decode_execute.md R81). There is no return from a fatal
condition (60_exceptions.md R111): reset is the only way out of the halted state, and `applyReset` is it. -/

namespace Sys2Proof.Machine

/-- `x[i]`: register 0 reads as zero whatever its cell holds (10_state.md R14). -/
def readReg (i : RegIdx) (s : State) : Word :=
  if i = 0#5 then 0#32 else s.regs[i.toNat]'(regIdx_lt i)

/-- `x[i] <- v`: no effect when `i = 0` (10_state.md R15). -/
def writeReg (i : RegIdx) (v : Word) (s : State) : State :=
  if i = 0#5 then s else { s with regs := s.regs.set i.toNat v (regIdx_lt i) }

/-- The other writing of the same operation that 10_state.md R15 quotes from the source: write the indexed register,
then clear register 0. Nothing of the model uses it. -/
def writeRegReclear (i : RegIdx) (v : Word) (s : State) : State :=
  { s with regs := (s.regs.set i.toNat v (regIdx_lt i)).set 0 0#32 }

/-- The default advance: `pc <- pc + 4` modulo 2^32 (10_state.md R13, decision D3, log 4). -/
def advancePc (s : State) : State := { s with pc := s.pc + 4#32 }

/-- The numeric code of a fault kind (60_exceptions.md R100, decision D5, log 6). -/
def faultCode : FaultKind → BitVec 3
  | .none => 0#3
  | .unmappedAddress => 1#3
  | .misalignedFetch => 2#3
  | .outOfBounds => 3#3
  | .unhandledInstruction => 4#3
  | .corruptImage => 5#3

/-- `code(F)` as a kind (60_exceptions.md R101 to R104). -/
def conditionKind : FatalCondition → FaultKind
  | .unmappedAddress _ => .unmappedAddress
  | .misalignedFetch _ => .misalignedFetch
  | .outOfBounds _ => .outOfBounds
  | .unhandledInstruction _ _ => .unhandledInstruction

/-- `fault_value` of a condition: the offending address, or the raw word (60_exceptions.md R107). -/
def conditionValue : FatalCondition → Word
  | .unmappedAddress addr => addr
  | .misalignedFetch addr => addr
  | .outOfBounds addr => addr
  | .unhandledInstruction w _ => w

/-- `fault_addr` of a condition: the address of the instruction (60_exceptions.md R107). -/
def conditionAddr : FatalCondition → Word
  | .unmappedAddress addr => addr
  | .misalignedFetch addr => addr
  | .outOfBounds addr => addr
  | .unhandledInstruction _ addr => addr

/-- The state a fatal condition leaves: halted, with the fault record set and all else as it was (60_exceptions.md
R106). -/
def haltWith (c : FatalCondition) (s : State) : State :=
  { s with halted := true, faultKind := conditionKind c, faultValue := conditionValue c, faultAddr := conditionAddr c }

/-- `raise F(info)` (60_exceptions.md R106): the step ends at once, as a fault that carries the halted state (log 7). -/
def raise (c : FatalCondition) (s : State) : StepOutcome :=
  .fault
    (match c with
     | .unmappedAddress _ => .unmappedAddress (haltWith c s)
     | .misalignedFetch _ => .misalignedFetch (haltWith c s)
     | .outOfBounds _ => .outOfBounds (haltWith c s)
     | .unhandledInstruction _ _ => .unhandledInstruction (haltWith c s))

/-- The halted state a fault leaves behind. -/
def faultState : Fault → State
  | .unmappedAddress t => t
  | .misalignedFetch t => t
  | .outOfBounds t => t
  | .unhandledInstruction t => t

/-- The fatal condition a failed request becomes (40_fetch_decode_execute.md R81): the same, with the same address. -/
def busCondition : BusFault → FatalCondition
  | .unmappedAddress addr => .unmappedAddress addr
  | .outOfBounds addr => .outOfBounds addr

/-- `MemRead(addr, n)` (00_scope.md R7): `Load32` for 4 bytes, and no such access otherwise (20_memory.md R46, log 18). -/
def memRead (s : State) (addr : Word) (n : Nat) : Host.Outcome Word BusFault Refusal :=
  if n = 4 then
    match load32 s.cfg.devices s.rom addr with
    | .ok w => .next w
    | .error f => .fault f
  else .refused (.noSuchAccessWidth n)

/-- `MemWrite(addr, n, v)`: it does not exist in this hardware for any `n` (20_memory.md R47, decision D13, log 18). -/
def memWrite (_s : State) (_addr : Word) (_n : Nat) (_v : Word) : StepOutcome := .refused .noStoreOperation

/-- `pc[1:0]` (10_state.md R12). -/
def pcLowBits (s : State) : BitVec 2 := s.pc.extractLsb' 0 2

/-- Steps 1 and 2 of 40_fetch_decode_execute.md R80: the core tests the alignment before it asks the Interconnect
(decision D4, log 5), and hands `pc` over unchanged (20_memory.md R44, log 20). -/
def fetch (s : State) : Except FatalCondition Word :=
  if pcLowBits s = 0#2 then
    match load32 s.cfg.devices s.rom s.pc with
    | .ok w => .ok w
    | .error f => .error (busCondition f)
  else .error (.misalignedFetch s.pc)

/-- The `reset` input (70_reset_and_hazards.md R130, decision D9): the state of 10_state.md R23, the ROM and the
configuration kept. -/
def applyReset (s : State) : State := State.resetWith s.cfg s.rom

end Sys2Proof.Machine
end

