-- ==== Sys2Proof/Machine/Operands.lean ====
section
/-! DEFINITION. The operand forms of the instruction set: a 16-bit immediate used as an upper half, and a destination
register written through `writeReg`. There is no source register operand and no memory operand (10_state.md R16,
41_lui.md R90). -/

namespace Sys2Proof.Machine

/-- `imm16 ‖ 0x0000` (41_lui.md R90). -/
def upperImmediate (imm16 : Imm16) : Word := imm16 ++ 0#16

end Sys2Proof.Machine
end

