-- ==== Sys2Proof/Machine/Flags.lean ====
section
/-! DEFINITION. Flags: the block has no condition codes and no flags (10_state.md R18), `LUI` computes none (41_lui.md
R90), and the PC advance raises no overflow (41_lui.md R92). This file holds no definition. -/
end

