-- ==== Sys2Proof/Machine/ImmediateLoad.lean ====
section
/-! DEFINITION. The immediate load family, whose one member is `LUI` (41_lui.md). -/

namespace Sys2Proof.Machine

/-- `LUI` (41_lui.md R90), run after `pc` has been advanced: `x[rt] <- imm16 ‖ 0x0000`. `rs` is not examined
(30_encoding.md R66, decision D2, log 3). -/
def execLui (_rs rt : RegIdx) (imm16 : Imm16) (s : State) : StepOutcome :=
  .next (writeReg rt (upperImmediate imm16) s)

end Sys2Proof.Machine
end

