-- ==== Sys2Proof/Machine/Dispatch.lean ====
section
/-! DEFINITION. Step 5 of 40_fetch_decode_execute.md R80: the instruction's handler, one arm for each constructor. -/

namespace Sys2Proof.Machine

def exec (i : Instr) (s : State) : Host.Outcome State Fault Refusal :=
  match i with
  | .lui rs rt imm16 => Sys2Proof.Machine.execLui rs rt imm16 s

end Sys2Proof.Machine
end

