-- ==== Sys2Proof/Machine/Cycle.lean ====
section
/-! DEFINITION. The step of the core (40_fetch_decode_execute.md R80), the loop around it with the host's two inputs
(R87, 60_exceptions.md R114), and the block as the host sees it over many cycles. -/

namespace Sys2Proof.Machine

/-- One step of a running block (40_fetch_decode_execute.md R80): fetch, advance, decode, dispatch. A word that is no
instruction is rejected after the advance (R82, R84). -/
def coreStep (s : State) : StepOutcome :=
  match fetch s with
  | .error c => raise c s
  | .ok w =>
    match decodeInstr w with
    | .ok i => exec i (advancePc s)
    | .error _ => raise (.unhandledInstruction w s.pc) (advancePc s)

/-- The host's inputs, sampled between steps (10_state.md R22). -/
structure HostInputs where
  reset : Bool
  runEn : Bool
  deriving DecidableEq, Repr

/-- What the block does between two samplings of its inputs (40_fetch_decode_execute.md R87): reset, or nothing when it
is halted (60_exceptions.md R111) or `run_en` is 0, or one step.
DESIGN CHOICE (log 14): `reset` is looked at first and takes the cycle. -/
def cycle (inp : HostInputs) (s : State) : StepOutcome :=
  if inp.reset then .next (applyReset s)
  else if s.halted then .next s
  else if inp.runEn then coreStep s
  else .next s

/-- The state of the block after an outcome: a fault leaves the halted state it carries. A cycle is never refused. -/
def settle (s : State) : StepOutcome → State
  | .next t => t
  | .fault f => faultState f
  | .refused _ => s

/-- The state of the block after one cycle, halted or not. -/
def cycleState (s : State) (inp : HostInputs) : State := settle s (cycle inp s)

/-- The state of the block after the host has held a sequence of inputs, first input first. -/
def runHost (inps : List HostInputs) (s : State) : State := inps.foldl cycleState s

/-- `run_en` held at 1 and `reset` at 0: the core free-runs. -/
def freeRun : HostInputs := { reset := false, runEn := true }

/-- Four bytes of a word placed at the address the next fetch reads. -/
def placeWordAtPc (s : State) (w : Word) : State :=
  { s with rom := setBytes s.rom s.pc.toNat (bytesOfWord w) }

end Sys2Proof.Machine
end

