-- ==== Sys2Proof/Machine/Step.lean ====
section
/-! DEFINITION. One step of the machine as the host's interface names it: a cycle with `run_en` held at 1 and `reset`
at 0. A halted block takes no step and holds its state (60_exceptions.md R111, log 8). -/

namespace Sys2Proof.Machine

/-- One step: state to next state, or to the fault that carries the halted state. -/
def step (s : State) : Host.Outcome State Fault Refusal := cycle freeRun s

/-- `s` with an instruction stored where `step` fetches its next one: the four bytes at `pc`. It stands for
constructing the machine with an image that holds the word there (log 12). -/
def State.withFetchWord (s : State) (nbits w : Nat) : State := placeWordAtPc s (BitVec.ofNat 32 (w % 2 ^ nbits))

end Sys2Proof.Machine
end

