-- ==== Sys2Proof/Machine/Construct.lean ====
section
/-! DEFINITION. Construction: how a machine comes to exist from a configuration and an image (70_reset_and_hazards.md
R133, R134, R136). -/

namespace Sys2Proof.Machine

/-- `Construct(cfg)` (70_reset_and_hazards.md R133): the image's length is checked first, then the device table; the ROM
takes the image's bytes in order and the machine is in the reset state. -/
def construct (cfg : Cfg) (image : List Byte) : StepOutcome :=
  if image.length ≠ cfg.biosSize then .refused (.corruptImage image.length)
  else if legalTable cfg.devices = true then
    .next (State.resetWith cfg (memoryOfImage cfg.biosBase.toNat image))
  else .refused .badDeviceTable

/-- The fault kind a host that reports construction and run-time failures through one channel shows (60_exceptions.md
R105): code 5 for a corrupt image, none for a bad device table, which has no code. -/
def reportedKind : StepOutcome → FaultKind
  | .fault f => (faultState f).faultKind
  | .refused (.corruptImage _) => .corruptImage
  | .refused _ => .none
  | .next s => s.faultKind

end Sys2Proof.Machine
end

