-- ==== Sys2Proof/Machine/Ports.lean ====
section
/-! DEFINITION. What crosses the block's boundaries at a step boundary or within a request (10_state.md R22,
20_memory.md R52, decision D8). A port that carries nothing is `none` (DESIGN CHOICE, log 21, safe). -/

namespace Sys2Proof.Machine

/-- `obs_pc`. -/
def obsPc (s : State) : Word := s.pc

/-- `obs_reg_val` for `obs_reg_idx` (index 0 reads 0). -/
def obsReg (s : State) (idx : RegIdx) : Word := readReg idx s

/-- `halted`, one bit. -/
def haltedPort (s : State) : BitVec 1 := BitVec.ofBool s.halted

/-- `fault_kind`, three bits. -/
def faultKindPort (s : State) : BitVec 3 := faultCode s.faultKind

/-- `fault_value`. -/
def faultValuePort (s : State) : Word := s.faultValue

/-- `fault_addr`. -/
def faultAddrPort (s : State) : Word := s.faultAddr

/-- The answer of the Interconnect to a request: `ic_resp_data` and `ic_resp_fault`. -/
structure IcResponse where
  data : Option Word
  fault : BitVec 2
  deriving DecidableEq, Repr

/-- A step is taken between two samplings of the inputs: no reset, a running block, and `run_en` held at 1
(40_fetch_decode_execute.md R87, 60_exceptions.md R111; reset before `run_en`: log 14). -/
def takesStep (inp : HostInputs) (s : State) : Bool := !inp.reset && !s.halted && inp.runEn

/-- The request the core makes (`ic_req_addr`): `pc`, in a step that finds it aligned; a step with a misaligned `pc`
makes no request (60_exceptions.md R102).
DESIGN CHOICE (log 21, safe): the spec does not say what the port carries when no step is taken (a halted block, `run_en`
at 0, or a cycle of reset); the model has no request there. -/
def icRequest (inp : HostInputs) (s : State) : Option Word :=
  if takesStep inp s = true ∧ pcLowBits s = 0#2 then some s.pc else none

/-- The response to a request (20_memory.md R52): code 0 with the word, or code 1 or 3. -/
def icResponse (ds : List Device) (rom : Memory) (addr : Word) : IcResponse :=
  match load32 ds rom addr with
  | .ok w => { data := some w, fault := 0#2 }
  | .error (.unmappedAddress _) => { data := none, fault := 1#2 }
  | .error (.outOfBounds _) => { data := none, fault := 3#2 }

/-- The ports between the Interconnect and one device during a request. -/
structure DevicePorts where
  sel : Bool
  off : Option Word
  rdata : Option Word
  oob : Bool
  deriving DecidableEq, Repr

/-- `dev_sel[d]`, `dev_off[d]`, `dev_rdata[d]` and `dev_oob[d]` (20_memory.md R52): driven for the matching device
only. -/
def devicePorts (rom : Memory) (d : Device) (addr : Word) : DevicePorts :=
  if contains d addr = true then
    { sel := true
      off := some (deviceOffset d addr)
      rdata := devLoad32 rom d (deviceOffset d addr)
      oob := (devLoad32 rom d (deviceOffset d addr)).isNone }
  else { sel := false, off := none, rdata := none, oob := false }

end Sys2Proof.Machine
end

