-- ==== Sys2Proof/Safety.lean ====
section
/-! DEFINITION. What counts as a safe run, in the terms the statements use: the invariant of the block's state, and what
an outcome leaves behind. -/

namespace Sys2Proof.Machine

/-- The fault record of a running block: kind none, value and address 0 (10_state.md R19). -/
def recordClear (s : State) : Prop := s.faultKind = .none ∧ s.faultValue = 0#32 ∧ s.faultAddr = 0#32

/-- The fault record of a halted block tells the truth about the ROM, and `pc` stands where 60_exceptions.md R110 leaves
it: for each kind, the condition under which R101 to R104 raise it holds at `fault_addr`. -/
def recordTrue (s : State) : Prop :=
  match s.faultKind with
  | .none => False
  | .corruptImage => False
  | .misalignedFetch =>
    s.faultAddr.extractLsb' 0 2 ≠ 0#2 ∧ s.faultValue = s.faultAddr ∧ s.pc = s.faultAddr
  | .unmappedAddress =>
    s.faultAddr.extractLsb' 0 2 = 0#2 ∧ (∀ d ∈ s.cfg.devices, contains d s.faultAddr = false) ∧
      s.faultValue = s.faultAddr ∧ s.pc = s.faultAddr
  | .outOfBounds =>
    s.faultAddr.extractLsb' 0 2 = 0#2 ∧
      (∃ d ∈ s.cfg.devices, contains d s.faultAddr = true ∧ d.size < s.faultAddr.toNat - d.base.toNat + 4) ∧
      s.faultValue = s.faultAddr ∧ s.pc = s.faultAddr
  | .unhandledInstruction =>
    s.faultAddr.extractLsb' 0 2 = 0#2 ∧ load32 s.cfg.devices s.rom s.faultAddr = .ok s.faultValue ∧
      s.faultValue.extractLsb' 26 6 ≠ luiOpcode ∧ s.pc = s.faultAddr + 4#32

/-- The invariant of the block: the ROM's list is canonical and lies in the BIOS range, the device table is legal,
register 0 holds zero, and the fault record is clear while the block runs and true once it is halted. -/
def BlockInv (s : State) : Prop :=
  Memory.wf s.rom = true ∧
  memoryWithin s.rom s.cfg.biosBase.toNat (s.cfg.biosBase.toNat + s.cfg.biosSize) = true ∧
  legalTable s.cfg.devices = true ∧
  s.regs[0] = 0#32 ∧
  (s.halted = false → recordClear s) ∧
  (s.halted = true → recordTrue s)

/-- `P` holds of the state an outcome leaves, be it a next state or the halted state of a fault; a refusal leaves
none. -/
def Leaves (P : State → Prop) : StepOutcome → Prop
  | .next t => P t
  | .fault f => P (faultState f)
  | .refused _ => False

/-- Two states that differ in their general registers at most. -/
def SameButRegs (s t : State) : Prop := { t with regs := s.regs } = s

/-- A fetch that succeeds: `pc` is aligned and `Load32(pc)` answers the word. -/
def Fetches (s : State) (w : Word) : Prop :=
  s.pc.extractLsb' 0 2 = 0#2 ∧ load32 s.cfg.devices s.rom s.pc = .ok w

end Sys2Proof.Machine
end

