-- ==== Sys2Proof/Certificates/Slice0/Obligations.lean ====
section
/-! DEFINITION. The statements about the machine, for the provers. Each docstring names the rule it formalises; where a
clause rests on a decision the spec marks as its own, or on a choice of this model, it says so. -/

open Sys2Proof Sys2Proof.Machine

/-! ### The instruction -/

/-- 41_lui.md, LUI (R90 semantics, R92 a): `LUI` always completes, the target register holds `imm16 × 65536` (register
0 still reads 0), and nothing else changes: no other register, not `pc` (already advanced), not the run state or the fault
record, not the configuration, and no byte of memory. -/
def Obligations.LuiCompletesAndWritesUpperHalf : Prop :=
  ∀ (rs rt : RegIdx) (imm16 : Imm16) (s : State), ∃ t, exec (.lui rs rt imm16) s = .next t ∧
    (readReg rt t).toNat = (if rt = 0#5 then 0 else imm16.toNat * 65536) ∧
    (∀ j, j ≠ rt → readReg j t = readReg j s) ∧
    t.pc = s.pc ∧ t.halted = s.halted ∧
    t.faultKind = s.faultKind ∧ t.faultValue = s.faultValue ∧ t.faultAddr = s.faultAddr ∧
    t.cfg = s.cfg ∧ ∀ a, readByte t.rom a = readByte s.rom a

/-- 41_lui.md, the corner cases the spec derives: `rt = 0` changes nothing, `rs` is not examined (decision D2, log 3),
the low half of the target is zero, and running the same `LUI` twice is running it once. -/
def Obligations.LuiCornerCases : Prop :=
  ∀ (rs rs' rt : RegIdx) (imm16 : Imm16) (s : State),
    exec (.lui rs 0#5 imm16) s = .next s ∧
    exec (.lui rs rt imm16) s = exec (.lui rs' rt imm16) s ∧
    ∃ t, exec (.lui rs rt imm16) s = .next t ∧ (readReg rt t).extractLsb' 0 16 = 0#16 ∧
      exec (.lui rs rt imm16) t = .next t

/-! ### Registers and pc -/

/-- R14 (10_state.md): writing a register other than 0 then reading it gives the value, register 0 always reads 0
whatever was written, and no other register changes. -/
def Obligations.RegisterFileReadsWhatWasWritten : Prop :=
  ∀ (i : RegIdx) (v : Word) (s : State),
    (i ≠ 0#5 → readReg i (writeReg i v s) = v) ∧
    readReg 0#5 (writeReg i v s) = 0#32 ∧ readReg 0#5 s = 0#32 ∧
    ∀ j, j ≠ i → readReg j (writeReg i v s) = readReg j s

/-- 10_state.md, register write: the source's own writing of it (write, then clear register 0) gives every observer the
same registers, and the same state wherever register 0's cell holds zero. The spec marks the agreement as derived. -/
def Obligations.BothRegisterWritesAgree : Prop :=
  ∀ (i : RegIdx) (v : Word) (s : State),
    (∀ j, readReg j (writeRegReclear i v s) = readReg j (writeReg i v s)) ∧
    (s.regs[0] = 0#32 → writeRegReclear i v s = writeReg i v s)

/-- 10_state.md, wrap-around (decision D3, log 4), and 41_lui.md, arithmetic b: the advance adds 4 modulo 2^32 and
touches nothing but `pc`. -/
def Obligations.PcAdvanceWrapsAndTouchesOnlyPc : Prop :=
  ∀ s : State, (advancePc s).pc.toNat = (s.pc.toNat + 4) % 2 ^ 32 ∧
    advancePc s = { s with pc := (advancePc s).pc } ∧
    (s.pc = 0xFFFFFFFC#32 → (advancePc s).pc = 0#32)

/-- R17 (10_state.md): the register file is changed by reset or by the instruction a running block executes, and by
nothing else; a fault leaves it as it was. -/
def Obligations.RegistersChangeOnlyByInstructionOrReset : Prop :=
  ∀ (inp : HostInputs) (s : State),
    ((cycleState s inp).regs ≠ s.regs →
      inp.reset = true ∨
      (s.halted = false ∧ inp.runEn = true ∧
        ∃ w i, Fetches s w ∧ decodeInstr w = .ok i ∧ cycle inp s = exec i (advancePc s))) ∧
    ∀ f, cycle inp s = .fault f → (faultState f).regs = s.regs

/-- 10_state.md, names: no instruction reads a general register, so two blocks that differ in their registers only still
differ in their registers only after the same inputs, halted or not, for any number of cycles. -/
def Obligations.RegistersNeverSteerExecution : Prop :=
  ∀ (inps : List HostInputs) (s t : State), SameButRegs s t → SameButRegs (runHost inps s) (runHost inps t)

/-! ### Encoding -/

/-- 30_encoding.md, fields: the four fields partition the word. The positions of `rs`, `rt` and `imm16` are the spec's
decision D1 (log 2). -/
def Obligations.FieldsPartitionTheWord : Prop :=
  ∀ w : Word, (decodeFields w).op ++ (decodeFields w).rs ++ (decodeFields w).rt ++ (decodeFields w).imm16 = w

/-- 30_encoding.md and 95_test_vectors.md section 2.1: words written out from the encoding decode as the spec's table
says. Field positions: decision D1 (log 2). -/
def Obligations.SampleWordsDecodeAsTheSpecSays : Prop :=
  decodeInstr 0x3C081234#32 = .ok (.lui 0#5 8#5 0x1234#16) ∧
  decodeInstr 0x3FE81234#32 = .ok (.lui 31#5 8#5 0x1234#16) ∧
  decodeInstr 0x3C000000#32 = .ok (.lui 0#5 0#5 0#16) ∧
  decodeInstr 0x3FFFFFFF#32 = .ok (.lui 31#5 31#5 0xFFFF#16) ∧
  decodeInstr 0x3BFFFFFF#32 = .error (.unhandledInstruction 0x3BFFFFFF#32) ∧
  decodeInstr 0x40000000#32 = .error (.unhandledInstruction 0x40000000#32) ∧
  decodeInstr 0x00000000#32 = .error (.unhandledInstruction 0#32) ∧
  decodeBytes [0x34#8, 0x12#8, 0x08#8, 0x3C#8] = .ok (.lui 0#5 8#5 0x1234#16, [])

/-- 30_encoding.md, selection of `LUI`: a word is an instruction exactly when it matches the table's row, that is when
it lies from 0x3C000000 to 0x3FFFFFFF; the value of `rs` is not looked at (decision D2, log 3). -/
def Obligations.LuiOccupiesExactlyItsTableBlock : Prop :=
  ∀ w : Word, ((∃ i, decodeInstr w = .ok i) ↔ w &&& 0xFC000000#32 = 0x3C000000#32) ∧
    ((∃ i, decodeInstr w = .ok i) ↔ 0x3C000000 ≤ w.toNat ∧ w.toNat ≤ 0x3FFFFFFF)

/-- Decoding the bytes of any instruction gives it back with what follows, and bytes that decode are the bytes of the
instruction they decode to: no bit is dropped either way (30_encoding.md, format I; field positions: D1, log 2). -/
def Obligations.DecodeAndEncodeAgree : Prop :=
  (∀ (i : Instr) (rest : List Byte), decodeBytes (encodeBytes i ++ rest) = .ok (i, rest)) ∧
  ∀ (bs : List Byte) (i : Instr) (rest : List Byte), decodeBytes bs = .ok (i, rest) → bs = encodeBytes i ++ rest

/-- 30_encoding.md, format I as bytes in memory (derived there): which field bits each byte of a `LUI` holds. -/
def Obligations.LuiBytesHoldTheirFields : Prop :=
  ∀ (rs rt : RegIdx) (imm16 : Imm16), encodeBytes (.lui rs rt imm16) =
    [imm16.extractLsb' 0 8, imm16.extractLsb' 8 8, rs.extractLsb' 0 3 ++ rt, luiOpcode ++ rs.extractLsb' 3 2]

/-- 30_encoding.md, assembler syntax (decision D17): `lui $rt, imm16` assembles to `0x3C000000 | (rt << 16) | imm16`,
which decodes to that `LUI` with `rs = 0`. -/
def Obligations.AssembledLuiIsItsWord : Prop :=
  ∀ (rt : RegIdx) (imm16 : Imm16),
    assembleLui rt imm16 = 0x3C000000#32 ||| (rt.zeroExtend 32 <<< 16) ||| imm16.zeroExtend 32 ∧
    decodeInstr (assembleLui rt imm16) = .ok (.lui 0#5 rt imm16)

/-- 30_encoding.md, everything else: a word whose primary opcode is not `0b001111` is no instruction, and a running block
that fetches it raises UnhandledInstruction with the raw word and the address it came from. That `pc` is then already
advanced is the spec's decision D7 (log 9). -/
def Obligations.OtherOpcodesAreUnhandled : Prop :=
  ∀ w : Word, w.extractLsb' 26 6 ≠ 0b001111#6 →
    decodeInstr w = .error (.unhandledInstruction w) ∧
    ∀ s : State, s.halted = false → Fetches s w →
      step s = raise (.unhandledInstruction w s.pc) (advancePc s)

/-! ### Memory -/

/-- R37 (20_memory.md): containment, the subtraction looked at only when it cannot wrap, is the half-open interval in
unbounded integers. -/
def Obligations.ContainmentIsTheHalfOpenRange : Prop :=
  ∀ (d : Device) (addr : Word),
    (contains d addr = true ↔ d.base.toNat ≤ addr.toNat ∧ addr.toNat - d.base.toNat < d.size) ∧
    (contains d addr = true ↔ d.base.toNat ≤ addr.toNat ∧ addr.toNat < d.base.toNat + d.size)

/-- R39 (20_memory.md): an address no device claims is answered UnmappedAddress with that address, and only such an
address is; a word is answered only where a device claims the address; a running core that fetches from an unclaimed
aligned `pc` halts. -/
def Obligations.UnclaimedAddressesAreUnmapped : Prop :=
  ∀ (ds : List Device) (rom : Memory) (addr : Word),
    ((∀ d ∈ ds, contains d addr = false) ↔ load32 ds rom addr = .error (.unmappedAddress addr)) ∧
    (∀ w, load32 ds rom addr = .ok w → ∃ d ∈ ds, contains d addr = true) ∧
    ∀ s : State, s.halted = false → s.pc.extractLsb' 0 2 = 0#2 →
      (∀ d ∈ s.cfg.devices, contains d s.pc = false) → ∃ f, step s = .fault f ∧ (faultState f).halted = true

/-- 20_memory.md, the whole of Load32 (and unaligned requests, conflict C2): for a legal table, an address in a device's
range is answered the device's four bytes, little-endian and at any alignment, where all four lie in the range, and
OutOfBounds with the absolute address (D20, log 19) where they do not. -/
def Obligations.LoadInsideADeviceAnswersBytesOrOutOfBounds : Prop :=
  ∀ (ds : List Device) (rom : Memory) (addr : Word) (d : Device),
    legalTable ds = true → d ∈ ds → contains d addr = true →
    (addr.toNat - d.base.toNat + 4 ≤ d.size →
      load32 ds rom addr = .ok (wordOfBytes (readByte rom addr.toNat) (readByte rom (addr.toNat + 1))
        (readByte rom (addr.toNat + 2)) (readByte rom (addr.toNat + 3)))) ∧
    (d.size < addr.toNat - d.base.toNat + 4 → load32 ds rom addr = .error (.outOfBounds addr))

/-- 20_memory.md, routing (derived there): on a legal table the order in which devices are tested cannot be observed. -/
def Obligations.RoutingOrderIsUnobservable : Prop :=
  ∀ (ds ds' : List Device) (rom : Memory) (addr : Word),
    legalTable ds = true → ds.Perm ds' → load32 ds rom addr = load32 ds' rom addr

/-- 20_memory.md, legal device tables (decisions D11, D12, log 16): the check says that every range is not empty and
inside the 4 GiB space, and that any two rows are disjoint. -/
def Obligations.LegalTableCheckMeansItsConditions : Prop :=
  ∀ ds : List Device, legalTable ds = true ↔
    (∀ d ∈ ds, 1 ≤ d.size ∧ d.base.toNat + d.size ≤ 2 ^ 32) ∧
    ∀ (i j : Nat) (a b : Device), i ≠ j → ds[i]? = some a → ds[j]? = some b →
      a.base.toNat + a.size ≤ b.base.toNat ∨ b.base.toNat + b.size ≤ a.base.toNat

/-- R41 (20_memory.md): a loaded word is its four bytes, the lowest address in bits 7 to 0, the fourth byte's top six
bits the primary opcode; and an instruction is fetched with the same Load32. -/
def Obligations.WordsAreLittleEndian : Prop :=
  (∀ (ds : List Device) (rom : Memory) (addr w : Word), load32 ds rom addr = .ok w →
    w.extractLsb' 0 8 = readByte rom addr.toNat ∧ w.extractLsb' 8 8 = readByte rom (addr.toNat + 1) ∧
    w.extractLsb' 16 8 = readByte rom (addr.toNat + 2) ∧ w.extractLsb' 24 8 = readByte rom (addr.toNat + 3) ∧
    (decodeFields w).op = (readByte rom (addr.toNat + 3)).extractLsb' 2 6) ∧
  ∀ (s : State) (w : Word), fetch s = .ok w → load32 s.cfg.devices s.rom s.pc = .ok w

/-- 20_memory.md, widths and stores: a 4-byte read is Load32; there is no read of another width and no store. That both
are refusals is the model's form of it (D13, log 18). -/
def Obligations.OnlyWordLoadsExist : Prop :=
  ∀ (s : State) (addr : Word) (n v : Nat),
    (∀ w, memRead s addr 4 = .next w ↔ load32 s.cfg.devices s.rom addr = .ok w) ∧
    (n ≠ 4 → memRead s addr n = .refused (.noSuchAccessWidth n)) ∧
    memWrite s addr n v = .refused .noStoreOperation

/-- 20_memory.md, request and response, and 10_state.md, interfaces (D8, log 21): on a legal table at most one device is
selected; a selected device's answer is the Interconnect's, with the offset `addr - base`; with none selected the
response is code 1 without data. -/
def Obligations.AtMostOneDeviceAnswersARequest : Prop :=
  ∀ (ds : List Device) (rom : Memory) (addr : Word), legalTable ds = true →
    (∀ d ∈ ds, (devicePorts rom d addr).sel = true →
      (∀ d' ∈ ds, (devicePorts rom d' addr).sel = true → d' = d) ∧
      (devicePorts rom d addr).off = some (addr - d.base) ∧
      (icResponse ds rom addr).data = (devicePorts rom d addr).rdata ∧
      (icResponse ds rom addr).fault = if (devicePorts rom d addr).oob then 3#2 else 0#2) ∧
    ((∀ d ∈ ds, (devicePorts rom d addr).sel = false) →
      icResponse ds rom addr = { data := none, fault := 1#2 })

/-- 10_state.md, interfaces, and 60_exceptions.md, MisalignedFetch (D4, log 5; D8, log 21): in a step the core requests
`pc` itself and only when it is aligned, and its fetch is the response to that request. That there is no request when no
step is taken (a halted block, `run_en` at 0, reset) is the model's choice (log 21). -/
def Obligations.CoreRequestsAnAlignedPcOnly : Prop :=
  ∀ (inp : HostInputs) (s : State),
    (inp.reset = false → inp.runEn = true → s.halted = false →
      (s.pc.extractLsb' 0 2 = 0#2 → icRequest inp s = some s.pc) ∧
      ∀ w, fetch s = .ok w ↔ ∃ a, icRequest inp s = some a ∧
        icResponse s.cfg.devices s.rom a = { data := some w, fault := 0#2 }) ∧
    (s.pc.extractLsb' 0 2 ≠ 0#2 → icRequest inp s = none) ∧
    (inp.reset = true ∨ inp.runEn = false ∨ s.halted = true → icRequest inp s = none)

/-! ### The step -/

/-- 40_fetch_decode_execute.md, the step: when the four bytes at an aligned `pc` lie in a device and decode to `i`, the
step of a running block is `exec i` at that state with `pc` advanced by 4, and nothing else is added. -/
def Obligations.StepRunsTheDecodedInstruction : Prop :=
  ∀ (s : State) (i : Instr), s.halted = false → s.pc.extractLsb' 0 2 = 0#2 →
    (∃ d ∈ s.cfg.devices, contains d s.pc = true ∧ s.pc.toNat - d.base.toNat + 4 ≤ d.size) →
    decodeBytes [readByte s.rom s.pc.toNat, readByte s.rom (s.pc.toNat + 1), readByte s.rom (s.pc.toNat + 2),
      readByte s.rom (s.pc.toNat + 3)] = .ok (i, []) →
    step s = exec i { s with pc := s.pc + 4#32 }

/-- 40_fetch_decode_execute.md, dispatch: it looks at the primary opcode only; `0b001111` runs the LUI handler and each
other value raises UnhandledInstruction with the raw word and the address it was fetched from. That `pc` is then already
advanced is the spec's decision D7 (log 9). -/
def Obligations.DispatchLooksAtThePrimaryOpcodeOnly : Prop :=
  ∀ (s : State) (w : Word), s.halted = false → Fetches s w →
    (w.extractLsb' 26 6 = 0b001111#6 →
      ∃ rs rt imm16, decodeInstr w = .ok (.lui rs rt imm16) ∧ step s = exec (.lui rs rt imm16) (advancePc s)) ∧
    (w.extractLsb' 26 6 ≠ 0b001111#6 → step s = raise (.unhandledInstruction w s.pc) (advancePc s))

/-- 40_fetch_decode_execute.md, the step, with 41_lui.md: a running block that fetches a word with opcode `0b001111`
completes; `pc` moves by 4 and the target register, bits 20:16 (D1, log 2), takes bits 15:0 times 65536. -/
def Obligations.StepOfALuiWordCompletes : Prop :=
  ∀ (s : State) (w : Word), s.halted = false → Fetches s w → w.extractLsb' 26 6 = 0b001111#6 →
    ∃ t, step s = .next t ∧ t.pc = s.pc + 4#32 ∧
      (∀ j, (readReg j t).toNat =
        if j = w.extractLsb' 16 5 ∧ j ≠ 0#5 then w.toNat % 65536 * 65536 else (readReg j s).toNat) ∧
      t.halted = false ∧ t.faultKind = s.faultKind ∧ t.faultValue = s.faultValue ∧ t.faultAddr = s.faultAddr ∧
      t.rom = s.rom ∧ t.cfg = s.cfg

/-- 40_fetch_decode_execute.md, control flow (derived there): execution is strictly sequential. After `k` steps that do
not fault `pc` is its old value plus `4 k` modulo 2^32, and the block runs on with the same ROM and parameters. -/
def Obligations.ExecutionIsStrictlySequential : Prop :=
  ∀ (k : Nat) (s t : State), s.halted = false → Host.Core.run Sys2Proof.core k s = .next t →
    t.pc = s.pc + BitVec.ofNat 32 (4 * k) ∧ t.halted = false ∧ t.rom = s.rom ∧ t.cfg = s.cfg

/-- 40_fetch_decode_execute.md, what a step touches (derived there): a step that completes changes `pc` and at most one
register; a step that faults writes the fault record, no register, and `pc` only for UnhandledInstruction; no step
changes the ROM or the parameters. -/
def Obligations.StepTouchesNothingElse : Prop :=
  ∀ s : State, s.halted = false →
    (∀ t, step s = .next t →
      t.pc = s.pc + 4#32 ∧ (∃ j, ∀ i, i ≠ j → readReg i t = readReg i s) ∧ t.halted = false ∧
      t.faultKind = s.faultKind ∧ t.faultValue = s.faultValue ∧ t.faultAddr = s.faultAddr ∧
      t.rom = s.rom ∧ t.cfg = s.cfg) ∧
    ∀ f, step s = .fault f →
      (faultState f).halted = true ∧ (faultState f).regs = s.regs ∧ (faultState f).rom = s.rom ∧
      (faultState f).cfg = s.cfg ∧
      (faultState f).pc = if (faultState f).faultKind = .unhandledInstruction then s.pc + 4#32 else s.pc

/-! ### Fatal conditions -/

/-- R8 (00_scope.md): a step answers a next state or a fault and nothing else, every fatal condition is a fault, and a
construction is refused for a bad configuration only. -/
def Obligations.StepAnswersNextStateOrFault : Prop :=
  (∀ s : State, (∃ t, step s = .next t) ∨ ∃ f, step s = .fault f) ∧
  (∀ (c : FatalCondition) (s : State), ∃ f, raise c s = .fault f) ∧
  ∀ (cfg : Cfg) (image : List Byte) (r : Refusal), construct cfg image = .refused r →
    r = .corruptImage image.length ∧ image.length ≠ cfg.biosSize ∨ r = .badDeviceTable ∧ legalTable cfg.devices = false

/-- 60_exceptions.md, MisalignedFetch (D4, log 5; the record: D6, log 7; `pc`: D7, log 9). -/
def Obligations.MisalignedPcFaults : Prop :=
  ∀ s : State, s.halted = false → s.pc.extractLsb' 0 2 ≠ 0#2 →
    step s = .fault (.misalignedFetch
      { s with halted := true, faultKind := .misalignedFetch, faultValue := s.pc, faultAddr := s.pc })

/-- 60_exceptions.md, UnmappedAddress (the record: D6, log 7; `pc`: D7, log 9). -/
def Obligations.UnmappedPcFaults : Prop :=
  ∀ s : State, s.halted = false → s.pc.extractLsb' 0 2 = 0#2 →
    (∀ d ∈ s.cfg.devices, contains d s.pc = false) →
    step s = .fault (.unmappedAddress
      { s with halted := true, faultKind := .unmappedAddress, faultValue := s.pc, faultAddr := s.pc })

/-- 60_exceptions.md, OutOfBounds (D20, log 19; the record: D6, log 7; `pc`: D7, log 9). -/
def Obligations.FetchPastTheEndOfADeviceFaults : Prop :=
  ∀ s : State, s.halted = false → s.pc.extractLsb' 0 2 = 0#2 →
    (∃ d ∈ s.cfg.devices, contains d s.pc = true ∧ d.size < s.pc.toNat - d.base.toNat + 4) →
    step s = .fault (.outOfBounds
      { s with halted := true, faultKind := .outOfBounds, faultValue := s.pc, faultAddr := s.pc })

/-- 60_exceptions.md, UnhandledInstruction: the record holds the raw word and its address, and `pc` is that address plus
4 (the record: D6, log 7; `pc`: D7, log 9). -/
def Obligations.UnhandledWordFaultsAfterTheAdvance : Prop :=
  ∀ (s : State) (w : Word), s.halted = false → Fetches s w → w.extractLsb' 26 6 ≠ 0b001111#6 →
    step s = .fault (.unhandledInstruction
      { s with pc := s.pc + 4#32, halted := true, faultKind := .unhandledInstruction, faultValue := w,
               faultAddr := s.pc })

/-- 60_exceptions.md, priority (the place of MisalignedFetch: D4, log 5): for a running block each outcome of a step has
exactly the condition the spec gives it, so one outcome answers and misalignment outranks the rest. -/
def Obligations.EachOutcomeHasItsExactCondition : Prop :=
  ∀ s : State, s.halted = false →
    ((∃ t, step s = .fault (.misalignedFetch t)) ↔ s.pc.extractLsb' 0 2 ≠ 0#2) ∧
    ((∃ t, step s = .fault (.unmappedAddress t)) ↔
      s.pc.extractLsb' 0 2 = 0#2 ∧ ∀ d ∈ s.cfg.devices, contains d s.pc = false) ∧
    ((∃ t, step s = .fault (.outOfBounds t)) ↔
      s.pc.extractLsb' 0 2 = 0#2 ∧
        ∃ d ∈ s.cfg.devices, contains d s.pc = true ∧ d.size < s.pc.toNat - d.base.toNat + 4) ∧
    ((∃ t, step s = .fault (.unhandledInstruction t)) ↔ ∃ w, Fetches s w ∧ w.extractLsb' 26 6 ≠ 0b001111#6) ∧
    ((∃ t, step s = .next t) ↔ ∃ w, Fetches s w ∧ w.extractLsb' 26 6 = 0b001111#6)

/-- 60_exceptions.md, no return (the halted state: D6, log 7): without reset a halted block keeps its whole state
whatever `run_en` is, and reset clears it. That `step` answers the unchanged state is the model's choice (log 8). -/
def Obligations.HaltedIsAbsorbingUntilReset : Prop :=
  ∀ (s : State) (inps : List HostInputs) (en : Bool), s.halted = true →
    ((∀ inp ∈ inps, inp.reset = false) → runHost inps s = s) ∧ step s = .next s ∧
    (cycleState s { reset := true, runEn := en }).halted = false

/-- 60_exceptions.md, codes (decision D5, log 6): the five conditions have the codes 1 to 5 in the source's order, none
has 0, the codes are distinct, and a raised condition shows its code at the port. -/
def Obligations.FaultCodesAreDistinct : Prop :=
  faultCode .none = 0#3 ∧ faultCode .unmappedAddress = 1#3 ∧ faultCode .misalignedFetch = 2#3 ∧
  faultCode .outOfBounds = 3#3 ∧ faultCode .unhandledInstruction = 4#3 ∧ faultCode .corruptImage = 5#3 ∧
  (∀ a b, faultCode a = faultCode b → a = b) ∧
  ∀ (c : FatalCondition) (s : State) (f : Fault), raise c s = .fault f →
    faultKindPort (faultState f) = faultCode (conditionKind c) ∧ haltedPort (faultState f) = 1#1 ∧
    faultValuePort (faultState f) = conditionValue c ∧ faultAddrPort (faultState f) = conditionAddr c

/-! ### Construction, reset, the host -/

/-- 70_reset_and_hazards.md, construction (D18, log 15; D11, log 16): a wrong-size image is refused with its length
(reported under code 5: D5, log 6), then an illegal table is refused, and otherwise the machine is in the reset state with the image in its ROM. -/
def Obligations.ConstructionChecksThenLoadsTheImage : Prop :=
  ∀ (cfg : Cfg) (image : List Byte),
    (image.length ≠ cfg.biosSize → construct cfg image = .refused (.corruptImage image.length) ∧
      faultCode (reportedKind (construct cfg image)) = 5#3) ∧
    (legalTable cfg.devices = true ↔ 1 ≤ cfg.biosSize ∧ cfg.biosBase.toNat + cfg.biosSize ≤ 2 ^ 32) ∧
    (image.length = cfg.biosSize → legalTable cfg.devices = false → construct cfg image = .refused .badDeviceTable) ∧
    (image.length = cfg.biosSize → legalTable cfg.devices = true →
      ∃ s, construct cfg image = .next s ∧ s.pc = cfg.resetVector ∧
        (∀ i, readReg i s = if i = 29#5 then cfg.spInit else 0#32) ∧ s.halted = false ∧ recordClear s ∧ s.cfg = cfg ∧
        ∀ k b, image[k]? = some b → readByte s.rom (cfg.biosBase.toNat + k) = b)

/-- 70_reset_and_hazards.md, reset (that it may be applied again, to a running or a halted block: D9, log 14): the
values of 10_state.md's table, ROM and parameters kept. -/
def Obligations.ResetInputRestoresTheResetValues : Prop :=
  ∀ (s : State) (en : Bool), ∃ t, cycle { reset := true, runEn := en } s = .next t ∧
    t.pc = s.cfg.resetVector ∧ (∀ i, readReg i t = if i = 29#5 then s.cfg.spInit else 0#32) ∧
    t.halted = false ∧ t.faultKind = .none ∧ t.faultValue = 0#32 ∧ t.faultAddr = 0#32 ∧
    t.rom = s.rom ∧ t.cfg = s.cfg

/-- The model's `State.reset` has the form of 10_state.md's reset table, and it is the machine that construction makes
of an image of zero bytes: that image, the reset vector and the stack pointer's value are the model's choices (log 10 to
12). The last clause says the same of every legal configuration. -/
def Obligations.ModelResetIsAConstructedMachine : Prop :=
  (State.reset.pc = Config.runner.resetVector ∧
    (∀ i, readReg i State.reset = if i = 29#5 then Config.runner.spInit else 0#32) ∧
    State.reset.halted = false ∧ recordClear State.reset) ∧
  construct Config.runner (List.replicate Config.runner.biosSize Config.unlistedByte) = .next State.reset ∧
  ∀ cfg : Cfg, legalTable cfg.devices = true →
    construct cfg (List.replicate cfg.biosSize Config.unlistedByte) = .next (State.resetWith cfg [])

/-- 60_exceptions.md, external events (D16, log 14): withholding `run_en` changes no state and records no fault,
and the cycle in which it returns is a step from the same state. -/
def Obligations.WithholdingRunEnChangesNothing : Prop :=
  ∀ s : State, cycle { reset := false, runEn := false } s = .next s ∧
    cycle { reset := false, runEn := true } s = step s

/-- The host's view of the registers and `pc` between steps (10_state.md, interfaces, D8): register 0 shows 0, and an
executed `LUI` shows its value at once (70_reset_and_hazards.md, hazards, D14). -/
def Obligations.HostSeesAWrittenRegisterAtOnce : Prop :=
  ∀ (rs rt : RegIdx) (imm16 : Imm16) (s : State), ∃ t, exec (.lui rs rt imm16) s = .next t ∧
    obsReg t 0#5 = 0#32 ∧ (rt ≠ 0#5 → obsReg t rt = imm16.zeroExtend 32 <<< 16) ∧ obsPc t = obsPc s

/-- The model's interface for a program's first word (log 12): on a canonical ROM, a word placed where the next fetch
reads is the word the very next step runs, and the table decoder reads the same instruction from it. -/
def Obligations.PlacedWordIsRunNext : Prop :=
  ∀ (s : State) (w : Word) (i : Instr), Memory.wf s.rom = true → s.halted = false → s.pc.extractLsb' 0 2 = 0#2 →
    (∃ d ∈ s.cfg.devices, contains d s.pc = true ∧ s.pc.toNat - d.base.toNat + 4 ≤ d.size) →
    decodeInstr w = .ok i →
    step (s.withFetchWord 32 w.toNat) = exec i (advancePc (s.withFetchWord 32 w.toNat)) ∧
    decodeTableWord 32 w.toNat = some i

/-! ### Whole-machine results -/

/-- The reset state meets the invariant. -/
def Obligations.ResetMeetsTheInvariant : Prop := BlockInv State.reset

/-- The invariant of Safety.lean (canonical ROM inside the BIOS range, legal table, register 0 zero, a clear record while
running and a true one once halted: 10_state.md R19, 60_exceptions.md R110) is kept by every step and every cycle, in
the next state and in the halted state of a fault alike. -/
def Obligations.EveryStepKeepsTheInvariant : Prop :=
  ∀ s : State, BlockInv s → Leaves BlockInv (step s) ∧ ∀ inp, Leaves BlockInv (cycle inp s)

/-- From construction on, whatever the host does: the invariant holds in every state the block reaches, so the fault
record of a halted block is the truth about the image; the parameters stay, and CorruptImage is never recorded
(60_exceptions.md, CorruptImage, D18). -/
def Obligations.EveryReachableStateMeetsTheInvariant : Prop :=
  ∀ (cfg : Cfg) (image : List Byte) (s : State) (inps : List HostInputs), construct cfg image = .next s →
    BlockInv (runHost inps s) ∧ (runHost inps s).cfg = cfg ∧ (runHost inps s).faultKind ≠ .corruptImage

/-- A cycle leaves the ROM and the parameters as they were, whatever it does: reset, hold, step or fault (10_state.md,
device state; that reset may be applied again: D9, log 14). -/
def Obligations.EveryCycleKeepsRomAndParameters : Prop :=
  ∀ (s : State) (inp : HostInputs), (cycleState s inp).rom = s.rom ∧ (cycleState s inp).cfg = s.cfg

/-- 10_state.md, device state, and 20_memory.md, fetch coherence (an inference the spec marks): the ROM holds the image's
bytes from construction on, and nothing the host or the core does changes one, reset included; so a load inside the
BIOS, at any alignment (conflict C2, log 22), answers the image's bytes at every point of every run. -/
def Obligations.RomHoldsTheImageForEver : Prop :=
  ∀ (cfg : Cfg) (image : List Byte) (s : State) (inps : List HostInputs), construct cfg image = .next s →
    (∀ k b, image[k]? = some b → readByte (runHost inps s).rom (cfg.biosBase.toNat + k) = b) ∧
    ∀ (k : Nat) (b0 b1 b2 b3 : Byte), image[k]? = some b0 → image[k + 1]? = some b1 → image[k + 2]? = some b2 →
      image[k + 3]? = some b3 →
      load32 cfg.devices (runHost inps s).rom (cfg.biosBase + BitVec.ofNat 32 k) = .ok (wordOfBytes b0 b1 b2 b3)

/-- 10_state.md, alignment invariant (derived there), as an invariant of every cycle from every state: where the reset
vector and `pc` are aligned and MisalignedFetch is not recorded, the same holds after any cycle. -/
def Obligations.EveryCycleKeepsPcAligned : Prop :=
  ∀ (s : State) (inp : HostInputs),
    s.cfg.resetVector.extractLsb' 0 2 = 0#2 → s.pc.extractLsb' 0 2 = 0#2 → s.faultKind ≠ .misalignedFetch →
    (cycleState s inp).cfg.resetVector.extractLsb' 0 2 = 0#2 ∧ (cycleState s inp).pc.extractLsb' 0 2 = 0#2 ∧
    (cycleState s inp).faultKind ≠ .misalignedFetch

/-- 10_state.md, alignment invariant (derived there): with an aligned reset vector `pc` is aligned in every state the
block reaches, and MisalignedFetch never occurs. -/
def Obligations.AlignedResetVectorKeepsPcAligned : Prop :=
  ∀ (cfg : Cfg) (image : List Byte) (s : State) (inps : List HostInputs), construct cfg image = .next s →
    cfg.resetVector.extractLsb' 0 2 = 0#2 →
    (runHost inps s).pc.extractLsb' 0 2 = 0#2 ∧ (runHost inps s).faultKind ≠ .misalignedFetch

/-- 70_reset_and_hazards.md, the end of a run (derived there): on this hardware, unless the image fills the whole 4 GiB
with `LUI` words, a run from construction makes at most `floor(BIOS_SIZE / 4)` successful steps and then faults; an
aligned machine ends by UnhandledInstruction, UnmappedAddress or OutOfBounds. -/
def Obligations.RunEndsWithinTheImageUnlessAllSpaceIsLui : Prop :=
  ∀ (cfg : Cfg) (image : List Byte) (s : State), construct cfg image = .next s → cfg.thisHardware = true →
    ¬(cfg.biosBase = 0#32 ∧ cfg.biosSize = 2 ^ 32 ∧
      ∀ k b, k % 4 = 3 → image[k]? = some b → b.extractLsb' 2 6 = 0b001111#6) →
    ∃ (k : Nat) (t : State) (f : Fault), k ≤ cfg.biosSize / 4 ∧ Host.Core.run Sys2Proof.core k s = .next t ∧
      step t = .fault f ∧
      (cfg.resetVector.extractLsb' 0 2 = 0#2 →
        (faultState f).faultKind = .unhandledInstruction ∨ (faultState f).faultKind = .unmappedAddress ∨
        (faultState f).faultKind = .outOfBounds)

/-- 70_reset_and_hazards.md, the end of a run, its one exception (derived there): a 4 GiB image at base 0 whose words
are all `LUI` runs for ever. -/
def Obligations.DegenerateImageRunsForEver : Prop :=
  ∀ (cfg : Cfg) (image : List Byte) (s : State), construct cfg image = .next s → cfg.thisHardware = true →
    cfg.biosBase = 0#32 → cfg.biosSize = 2 ^ 32 →
    (∀ k b, k % 4 = 3 → image[k]? = some b → b.extractLsb' 2 6 = 0b001111#6) →
    ∀ k, ∃ t : State, Host.Core.run Sys2Proof.core k s = .next t
end

