-- ==== Sys2Proof/Laws/State.lean ====
section
/-! SUPPORT. One lemma for each field and each update of the state, so that no proof unfolds a record update. -/

namespace Sys2Proof.Machine

section advancePc
variable (s : State)
@[simp] theorem advancePc_pc : (advancePc s).pc = s.pc + 4#32 := rfl
@[simp] theorem advancePc_regs : (advancePc s).regs = s.regs := rfl
@[simp] theorem advancePc_halted : (advancePc s).halted = s.halted := rfl
@[simp] theorem advancePc_faultKind : (advancePc s).faultKind = s.faultKind := rfl
@[simp] theorem advancePc_faultValue : (advancePc s).faultValue = s.faultValue := rfl
@[simp] theorem advancePc_faultAddr : (advancePc s).faultAddr = s.faultAddr := rfl
@[simp] theorem advancePc_rom : (advancePc s).rom = s.rom := rfl
@[simp] theorem advancePc_cfg : (advancePc s).cfg = s.cfg := rfl
@[simp] theorem readReg_advancePc (i : RegIdx) : readReg i (advancePc s) = readReg i s := rfl
end advancePc

section haltWith
variable (c : FatalCondition) (s : State)
@[simp] theorem haltWith_pc : (haltWith c s).pc = s.pc := rfl
@[simp] theorem haltWith_regs : (haltWith c s).regs = s.regs := rfl
@[simp] theorem haltWith_halted : (haltWith c s).halted = true := rfl
@[simp] theorem haltWith_faultKind : (haltWith c s).faultKind = conditionKind c := rfl
@[simp] theorem haltWith_faultValue : (haltWith c s).faultValue = conditionValue c := rfl
@[simp] theorem haltWith_faultAddr : (haltWith c s).faultAddr = conditionAddr c := rfl
@[simp] theorem haltWith_rom : (haltWith c s).rom = s.rom := rfl
@[simp] theorem haltWith_cfg : (haltWith c s).cfg = s.cfg := rfl
@[simp] theorem readReg_haltWith (i : RegIdx) : readReg i (haltWith c s) = readReg i s := rfl
end haltWith

section writeReg
variable (i : RegIdx) (v : Word) (s : State)
@[simp] theorem writeReg_pc : (writeReg i v s).pc = s.pc := by unfold writeReg; split <;> rfl
@[simp] theorem writeReg_halted : (writeReg i v s).halted = s.halted := by unfold writeReg; split <;> rfl
@[simp] theorem writeReg_faultKind : (writeReg i v s).faultKind = s.faultKind := by unfold writeReg; split <;> rfl
@[simp] theorem writeReg_faultValue : (writeReg i v s).faultValue = s.faultValue := by unfold writeReg; split <;> rfl
@[simp] theorem writeReg_faultAddr : (writeReg i v s).faultAddr = s.faultAddr := by unfold writeReg; split <;> rfl
@[simp] theorem writeReg_rom : (writeReg i v s).rom = s.rom := by unfold writeReg; split <;> rfl
@[simp] theorem writeReg_cfg : (writeReg i v s).cfg = s.cfg := by unfold writeReg; split <;> rfl

/-- A write never reaches the cell of register 0 (10_state.md R15). -/
@[simp] theorem writeReg_regs_zero : (writeReg i v s).regs[0] = s.regs[0] := by
  unfold writeReg
  split
  · rfl
  · next h =>
    have : i.toNat ≠ 0 := fun e => h (BitVec.eq_of_toNat_eq e)
    simp [this]
end writeReg

section resetWith
variable (cfg : Cfg) (rom : Memory)
@[simp] theorem resetWith_pc : (State.resetWith cfg rom).pc = cfg.resetVector := rfl
@[simp] theorem resetWith_regs :
    (State.resetWith cfg rom).regs = (Vector.replicate 32 0#32).set 29 cfg.spInit := rfl
@[simp] theorem resetWith_halted : (State.resetWith cfg rom).halted = false := rfl
@[simp] theorem resetWith_faultKind : (State.resetWith cfg rom).faultKind = .none := rfl
@[simp] theorem resetWith_faultValue : (State.resetWith cfg rom).faultValue = 0#32 := rfl
@[simp] theorem resetWith_faultAddr : (State.resetWith cfg rom).faultAddr = 0#32 := rfl
@[simp] theorem resetWith_rom : (State.resetWith cfg rom).rom = rom := rfl
@[simp] theorem resetWith_cfg : (State.resetWith cfg rom).cfg = cfg := rfl
end resetWith

section placeWordAtPc
variable (s : State) (w : Word)
@[simp] theorem placeWordAtPc_pc : (placeWordAtPc s w).pc = s.pc := rfl
@[simp] theorem placeWordAtPc_regs : (placeWordAtPc s w).regs = s.regs := rfl
@[simp] theorem placeWordAtPc_halted : (placeWordAtPc s w).halted = s.halted := rfl
@[simp] theorem placeWordAtPc_faultKind : (placeWordAtPc s w).faultKind = s.faultKind := rfl
@[simp] theorem placeWordAtPc_faultValue : (placeWordAtPc s w).faultValue = s.faultValue := rfl
@[simp] theorem placeWordAtPc_faultAddr : (placeWordAtPc s w).faultAddr = s.faultAddr := rfl
@[simp] theorem placeWordAtPc_rom : (placeWordAtPc s w).rom = setBytes s.rom s.pc.toNat (bytesOfWord w) := rfl
@[simp] theorem placeWordAtPc_cfg : (placeWordAtPc s w).cfg = s.cfg := rfl
end placeWordAtPc

@[simp] theorem applyReset_eq (s : State) : applyReset s = State.resetWith s.cfg s.rom := rfl

/-- Whatever a condition is, `raise` answers a fault that carries the halted state. -/
@[simp] theorem faultState_of_raise {c : FatalCondition} {s : State} {f : Fault} (h : raise c s = .fault f) :
    faultState f = haltWith c s := by
  cases c <;> (simp only [raise, Host.Outcome.fault.injEq] at h; subst h; rfl)

end Sys2Proof.Machine
end

