-- ==== Sys2Proof/Laws/Decode.lean ====
section
/-! SUPPORT. The decoder's small lemmas: when a word is an instruction, and the byte order. -/

namespace Sys2Proof

/-- The map of 30_encoding.md R65, one side at a time. -/
theorem decodeInstr_of_lui {w : Word} (h : w.extractLsb' 26 6 = luiOpcode) :
    decodeInstr w = .ok (.lui (w.extractLsb' 21 5) (w.extractLsb' 16 5) (w.extractLsb' 0 16)) := by
  simp [decodeInstr, decodeFields, h]

theorem decodeInstr_of_not_lui {w : Word} (h : w.extractLsb' 26 6 ≠ luiOpcode) :
    decodeInstr w = .error (.unhandledInstruction w) := by
  simp [decodeInstr, decodeFields, h]

/-- The bytes of a word put together again (20_memory.md R41). -/
theorem wordOfBytes_bytesOfWord (w : Word) :
    wordOfBytes (w.extractLsb' 0 8) (w.extractLsb' 8 8) (w.extractLsb' 16 8) (w.extractLsb' 24 8) = w := by
  apply BitVec.eq_of_getLsbD_eq
  intro i hi
  simp only [wordOfBytes, BitVec.getLsbD_append, BitVec.getLsbD_extractLsb']
  grind

/-- Bit `i` of a word made of four bytes. -/
theorem getLsbD_wordOfBytes (b0 b1 b2 b3 : Byte) (i : Nat) :
    (wordOfBytes b0 b1 b2 b3).getLsbD i =
      if i < 8 then b0.getLsbD i else if i < 16 then b1.getLsbD (i - 8)
      else if i < 24 then b2.getLsbD (i - 16) else b3.getLsbD (i - 24) := by
  simp only [wordOfBytes, BitVec.getLsbD_append]
  grind

end Sys2Proof
end

