-- ==== Sys2Proof/Laws/Memory.lean ====
section
/-! SUPPORT. The basic laws of the memory list: read after set, canonical form kept, the image's bytes. -/

namespace Sys2Proof.Machine

theorem memoryWf_cons {k : Nat} {b : Byte} {m : Memory} :
    memoryWf ((k, b) :: m) = true ↔ (∀ c ∈ m, k < c.1) ∧ b ≠ Config.unlistedByte ∧ memoryWf m = true := by
  simp [memoryWf, and_assoc]

/-- An address below every listed one reads as the unlisted byte. -/
theorem readByte_of_lt {m : Memory} {a : Nat} (h : ∀ c ∈ m, a < c.1) : readByte m a = Config.unlistedByte := by
  induction m with
  | nil => rfl
  | cons c m ih =>
    obtain ⟨k, b⟩ := c
    have hk : a < k := h (k, b) (by simp)
    rw [readByte, if_neg (by omega)]
    exact ih fun c hc => h c (by simp [hc])

/-- The addresses listed after a set are the one set and those listed before. -/
theorem mem_setByte {m : Memory} {a : Nat} {v : Byte} {c : Host.Cell} (h : c ∈ setByte m a v) :
    c.1 = a ∨ c ∈ m := by
  induction m with
  | nil =>
    rw [setByte] at h
    split at h <;> simp_all
  | cons d m ih =>
    obtain ⟨k, b⟩ := d
    rw [setByte] at h
    split at h
    · split at h
      · exact .inr h
      · rcases List.mem_cons.1 h with rfl | h
        · exact .inl rfl
        · exact .inr h
    · split at h
      · split at h
        · exact .inr (by simp [h])
        · rcases List.mem_cons.1 h with rfl | h
          · exact .inl rfl
          · exact .inr (by simp [h])
      · rcases List.mem_cons.1 h with rfl | h
        · exact .inr (by simp)
        · exact (ih h).imp id fun h => by simp [h]

/-- Setting a byte keeps the canonical form. -/
theorem setByte_wf {m : Memory} (a : Nat) (v : Byte) (h : memoryWf m = true) : memoryWf (setByte m a v) = true := by
  induction m with
  | nil =>
    rw [setByte]
    split <;> simp_all [memoryWf]
  | cons d m ih =>
    obtain ⟨k, b⟩ := d
    obtain ⟨h1, h2, h3⟩ := memoryWf_cons.1 h
    rw [setByte]
    split
    · split
      · exact h
      · refine memoryWf_cons.2 ⟨fun c hc => ?_, by assumption, h⟩
        rcases List.mem_cons.1 hc with rfl | hc
        · assumption
        · have := h1 c hc; omega
    · split
      · subst_vars
        split
        · exact h3
        · exact memoryWf_cons.2 ⟨h1, by assumption, h3⟩
      · refine memoryWf_cons.2 ⟨fun c hc => ?_, h2, ih h3⟩
        rcases mem_setByte hc with e | hc
        · omega
        · exact h1 c hc

/-- A set byte reads back, and every other address reads as before. -/
theorem readByte_setByte {m : Memory} (h : memoryWf m = true) (a : Nat) (v : Byte) (x : Nat) :
    readByte (setByte m a v) x = if x = a then v else readByte m x := by
  induction m with
  | nil =>
    rw [setByte]
    by_cases hx : x = a
    · split <;> simp_all [readByte]
    · split <;> simp [readByte, Ne.symm hx]
  | cons d m ih =>
    obtain ⟨k, b⟩ := d
    obtain ⟨h1, h2, h3⟩ := memoryWf_cons.1 h
    rw [setByte]
    split
    · next hak =>
      split
      · next hv =>
        by_cases hx : x = a
        · rw [if_pos hx, hv, hx]
          refine readByte_of_lt fun c hc => ?_
          rcases List.mem_cons.1 hc with rfl | hc
          · exact hak
          · have := h1 c hc; omega
        · rw [if_neg hx]
      · by_cases hx : x = a
        · simp [readByte, hx]
        · rw [if_neg hx, readByte, if_neg (Ne.symm hx)]
    · split
      · next hk =>
        subst hk
        by_cases hx : x = a
        · subst hx
          split
          · next hv => rw [if_pos rfl, hv]; exact readByte_of_lt h1
          · simp [readByte]
        · split <;> simp [readByte, Ne.symm hx]
      · next hk =>
        rw [readByte]
        by_cases hx : k = x
        · subst hx; simp [readByte, Ne.symm hk]
        · rw [if_neg hx, ih h3, readByte, if_neg hx]

theorem setBytes_wf {m : Memory} (a : Nat) (bs : List Byte) (h : memoryWf m = true) :
    memoryWf (setBytes m a bs) = true := by
  induction bs generalizing m a with
  | nil => exact h
  | cons b bs ih => exact ih _ (setByte_wf a b h)

/-- Consecutive set bytes read back in order, and every other address reads as before. -/
theorem readByte_setBytes {m : Memory} (h : memoryWf m = true) (a : Nat) (bs : List Byte) (x : Nat) :
    readByte (setBytes m a bs) x =
      if h : a ≤ x ∧ x < a + bs.length then bs[x - a]'(by omega) else readByte m x := by
  induction bs generalizing m a with
  | nil => simp [setBytes]
  | cons b bs ih =>
    rw [setBytes, ih (setByte_wf a b h), readByte_setByte h]
    by_cases hx : x = a
    · subst hx; simp
    · by_cases hr : a + 1 ≤ x ∧ x < a + 1 + bs.length
      · have e : x - a = (x - (a + 1)) + 1 := by omega
        have h' : a ≤ x ∧ x < a + (b :: bs).length := by simp only [List.length_cons]; omega
        rw [dif_pos hr, dif_pos h']
        simp only [e, List.getElem_cons_succ]
      · have h' : ¬(a ≤ x ∧ x < a + (b :: bs).length) := by simp only [List.length_cons]; omega
        rw [dif_neg hr, dif_neg h', if_neg hx]

theorem mem_memoryOfImage {base : Nat} {image : List Byte} {c : Host.Cell} (h : c ∈ memoryOfImage base image) :
    base ≤ c.1 ∧ c.1 < base + image.length := by
  induction image generalizing base with
  | nil => simp [memoryOfImage] at h
  | cons b image ih =>
    rw [memoryOfImage] at h
    split at h
    · have := ih h; simp only [List.length_cons]; omega
    · rcases List.mem_cons.1 h with rfl | h
      · simp
      · have := ih h; simp only [List.length_cons]; omega

/-- A loaded image is in canonical form. -/
theorem memoryOfImage_wf (base : Nat) (image : List Byte) : memoryWf (memoryOfImage base image) = true := by
  induction image generalizing base with
  | nil => rfl
  | cons b image ih =>
    rw [memoryOfImage]
    split
    · exact ih _
    · refine memoryWf_cons.2 ⟨fun c hc => ?_, by assumption, ih _⟩
      have := mem_memoryOfImage hc
      omega

/-- A loaded image lies in its range. -/
theorem memoryOfImage_within (base : Nat) (image : List Byte) :
    memoryWithin (memoryOfImage base image) base (base + image.length) = true := by
  simp only [memoryWithin, List.all_eq_true]
  intro c hc
  simp [mem_memoryOfImage hc]

/-- Byte `k` of the image reads at `base + k` (70_reset_and_hazards.md R133). -/
theorem readByte_memoryOfImage (base : Nat) (image : List Byte) (k : Nat) (hk : k < image.length) :
    readByte (memoryOfImage base image) (base + k) = image[k] := by
  induction image generalizing base k with
  | nil => simp at hk
  | cons b image ih =>
    rw [memoryOfImage]
    cases k with
    | zero =>
      split
      · next hb =>
        simp only [List.getElem_cons_zero, hb]
        refine readByte_of_lt fun c hc => ?_
        have := mem_memoryOfImage hc
        omega
      · simp [readByte]
    | succ k =>
      have hk' : k < image.length := by simpa using hk
      have e : base + (k + 1) = base + 1 + k := by omega
      split
      · simpa [e] using ih (base + 1) k hk'
      · rw [readByte, if_neg (by omega)]
        simpa [e] using ih (base + 1) k hk'

theorem setByte_within {m : Memory} {lo hi : Nat} (h : memoryWithin m lo hi = true) {a : Nat} (v : Byte)
    (ha : lo ≤ a ∧ a < hi) : memoryWithin (setByte m a v) lo hi = true := by
  simp only [memoryWithin, List.all_eq_true, Bool.and_eq_true, decide_eq_true_eq] at h ⊢
  intro c hc
  rcases mem_setByte hc with e | hc
  · omega
  · exact h c hc

/-- The ROM of the model's reset state is in canonical form. -/
theorem reset_memory_wf : Memory.wf State.reset.rom = true := rfl

/-- Placing the next fetch word keeps the canonical form. -/
theorem placeWordAtPc_wf (s : State) (w : Word) (h : Memory.wf s.rom = true) :
    Memory.wf (placeWordAtPc s w).rom = true := setBytes_wf _ _ h

end Sys2Proof.Machine
end

