-- ==== Sys2Proof/Laws/Interconnect.lean ====
section
/-! SUPPORT. What the Interconnect answers, said once for each of its three answers. -/

namespace Sys2Proof.Machine

theorem contains_iff {d : Device} {addr : Word} :
    contains d addr = true ↔ d.base.toNat ≤ addr.toNat ∧ addr.toNat - d.base.toNat < d.size := by
  simp [contains]

/-- The offset of a contained address does not wrap (20_memory.md R37). -/
theorem deviceOffset_toNat {d : Device} {addr : Word} (h : contains d addr = true) :
    (deviceOffset d addr).toNat = addr.toNat - d.base.toNat := by
  have := (contains_iff.1 h).1
  rw [deviceOffset, BitVec.toNat_sub_of_le (by simpa [BitVec.le_def] using this)]

theorem route_eq_none {ds : List Device} {addr : Word} :
    route ds addr = none ↔ ∀ d ∈ ds, contains d addr = false := by
  simp [route]

theorem route_eq_some {ds : List Device} {addr : Word} {d : Device} (h : route ds addr = some d) :
    d ∈ ds ∧ contains d addr = true :=
  ⟨List.mem_of_find?_eq_some h, by simpa using List.find?_some h⟩

/-- The table of this hardware has one row, so a device of it that contains the address is the routed one. -/
theorem route_cfg_devices {cfg : Cfg} {d : Device} {addr : Word} (hd : d ∈ cfg.devices)
    (hc : contains d addr = true) : route cfg.devices addr = some d := by
  obtain rfl : d = { base := cfg.biosBase, size := cfg.biosSize, kind := .rom } := by
    simpa [Cfg.devices] using hd
  simp [route, Cfg.devices, hc]

/-- The device answers its four bytes, lowest offset first (20_memory.md R33). -/
theorem devLoad32_of_le {rom : Memory} {d : Device} {off : Word} (h : off.toNat + 4 ≤ d.size) :
    devLoad32 rom d off =
      some (wordOfBytes (storeByte rom d off.toNat) (storeByte rom d (off.toNat + 1))
        (storeByte rom d (off.toNat + 2)) (storeByte rom d (off.toNat + 3))) := by
  unfold devLoad32; split; exact if_neg (by omega)

theorem devLoad32_eq_none {rom : Memory} {d : Device} {off : Word} :
    devLoad32 rom d off = none ↔ d.size < off.toNat + 4 := by
  unfold devLoad32; split; split <;> simp [*]

/-- The three answers of `Load32` (20_memory.md R40). -/
theorem load32_cases (ds : List Device) (rom : Memory) (addr : Word) :
    (route ds addr = none ∧ load32 ds rom addr = .error (.unmappedAddress addr)) ∨
    (∃ d, route ds addr = some d ∧ addr.toNat - d.base.toNat + 4 ≤ d.size ∧
      load32 ds rom addr = .ok (wordOfBytes (readByte rom addr.toNat) (readByte rom (addr.toNat + 1))
        (readByte rom (addr.toNat + 2)) (readByte rom (addr.toNat + 3)))) ∨
    (∃ d, route ds addr = some d ∧ d.size < addr.toNat - d.base.toNat + 4 ∧
      load32 ds rom addr = .error (.outOfBounds addr)) := by
  cases hr : route ds addr with
  | none => exact .inl ⟨rfl, by rw [load32, hr]⟩
  | some d =>
    have hc := (route_eq_some hr).2
    have hoff := deviceOffset_toNat hc
    have hb := (contains_iff.1 hc).1
    by_cases hs : addr.toNat - d.base.toNat + 4 ≤ d.size
    · refine .inr (.inl ⟨d, rfl, hs, ?_⟩)
      have e : ∀ n, d.base.toNat + (addr.toNat - d.base.toNat + n) = addr.toNat + n := fun n => by omega
      have e0 : d.base.toNat + (addr.toNat - d.base.toNat) = addr.toNat := by omega
      simp only [load32, hr, devLoad32_of_le (rom := rom) (hoff ▸ hs : (deviceOffset d addr).toNat + 4 ≤ d.size),
        storeByte, hoff, e, e0]
    · refine .inr (.inr ⟨d, rfl, by omega, ?_⟩)
      simp only [load32, hr, devLoad32_eq_none.2 (by omega : d.size < (deviceOffset d addr).toNat + 4)]

/-- A word that `Load32` answers is the four bytes from the address upward, and some device holds them all. -/
theorem load32_ok {ds : List Device} {rom : Memory} {addr w : Word} (h : load32 ds rom addr = .ok w) :
    w = wordOfBytes (readByte rom addr.toNat) (readByte rom (addr.toNat + 1)) (readByte rom (addr.toNat + 2))
        (readByte rom (addr.toNat + 3)) ∧
      ∃ d ∈ ds, contains d addr = true ∧ addr.toNat - d.base.toNat + 4 ≤ d.size := by
  rcases load32_cases ds rom addr with ⟨_, e⟩ | ⟨d, hr, hs, e⟩ | ⟨d, _, _, e⟩ <;> rw [e] at h
  · cases h
  · exact ⟨(Except.ok.inj h).symm, d, (route_eq_some hr).1, (route_eq_some hr).2, hs⟩
  · cases h

/-- Whether `Load32` answers a word, and which fault otherwise, depends on the table and the address alone: the bytes
are looked at afterwards. -/
theorem load32_congr {ds : List Device} {rom rom' : Memory} {addr : Word}
    (h : ∀ k, k < 4 → readByte rom (addr.toNat + k) = readByte rom' (addr.toNat + k)) :
    load32 ds rom addr = load32 ds rom' addr := by
  have h0 := h 0 (by omega); have h1 := h 1 (by omega); have h2 := h 2 (by omega); have h3 := h 3 (by omega)
  rw [Nat.add_zero] at h0
  rcases load32_cases ds rom addr with ⟨hr, e⟩ | ⟨d, hr, hs, e⟩ | ⟨d, hr, hs, e⟩ <;>
    rcases load32_cases ds rom' addr with ⟨hr', e'⟩ | ⟨d', hr', hs', e'⟩ | ⟨d', hr', hs', e'⟩ <;>
    rw [e, e'] <;> simp_all <;> omega

end Sys2Proof.Machine
end

