-- ==== Sys2Proof/Laws/Ops.lean ====
section
/-! SUPPORT. The register operations and the fetch, each said once. -/

namespace Sys2Proof.Machine

@[simp] theorem readReg_zero (s : State) : readReg 0#5 s = 0#32 := if_pos rfl

theorem readReg_of_ne {i : RegIdx} (h : i ≠ 0#5) (s : State) : readReg i s = s.regs[i.toNat]'(regIdx_lt i) :=
  if_neg h

/-- Reading looks at the register file alone. -/
theorem readReg_congr {s t : State} (h : s.regs = t.regs) (i : RegIdx) : readReg i s = readReg i t := by
  simp only [readReg, h]

/-- What a write does to every register (10_state.md R14 and R15). -/
theorem readReg_after_writeReg (i j : RegIdx) (v : Word) (s : State) :
    readReg j (writeReg i v s) = if j = i ∧ i ≠ 0#5 then v else readReg j s := by
  by_cases hi : i = 0#5
  · simp [writeReg, hi]
  · by_cases hj : j = 0#5
    · subst hj; simp [Ne.symm hi]
    · rw [readReg_of_ne hj, readReg_of_ne hj]
      simp only [writeReg, hi, if_false, Vector.getElem_set]
      by_cases e : i = j
      · subst e; simp [hi]
      · have : i.toNat ≠ j.toNat := fun h => e (BitVec.eq_of_toNat_eq h)
        simp [this, Ne.symm e]

/-- The upper half as a number: the immediate times 65536 (41_lui.md R92). -/
theorem upperImmediate_toNat (imm16 : Imm16) : (upperImmediate imm16).toNat = imm16.toNat * 65536 := by
  show BitVec.toNat (w := 16 + 16) (imm16 ++ 0#16) = _
  rw [BitVec.toNat_append]
  simp [Nat.shiftLeft_eq]

/-- The bits of the upper half: 16 zeros below the immediate. -/
theorem getLsbD_upperImmediate (imm16 : Imm16) (i : Nat) :
    (upperImmediate imm16).getLsbD i = if i < 16 then false else imm16.getLsbD (i - 16) := by
  show BitVec.getLsbD (w := 16 + 16) (imm16 ++ 0#16) i = _
  rw [BitVec.getLsbD_append]
  split <;> simp

/-- Writing a register twice with one value is writing it once. -/
theorem writeReg_writeReg_same (i : RegIdx) (v : Word) (s : State) :
    writeReg i v (writeReg i v s) = writeReg i v s := by
  unfold writeReg
  split <;> simp

/-- A fetch that answers a word is an aligned `Load32` of `pc` (40_fetch_decode_execute.md R81). -/
theorem fetch_ok {s : State} {w : Word} :
    fetch s = .ok w ↔ s.pc.extractLsb' 0 2 = 0#2 ∧ load32 s.cfg.devices s.rom s.pc = .ok w := by
  unfold fetch pcLowBits
  split
  · split <;> simp_all
  · simp_all

/-- A fetch that fails is one of the three fetch faults, with the reason the spec gives for it
(60_exceptions.md R101 to R103). -/
theorem fetch_error {s : State} {c : FatalCondition} (h : fetch s = .error c) :
    (s.pc.extractLsb' 0 2 ≠ 0#2 ∧ c = .misalignedFetch s.pc) ∨
    (s.pc.extractLsb' 0 2 = 0#2 ∧ (∀ d ∈ s.cfg.devices, contains d s.pc = false) ∧ c = .unmappedAddress s.pc) ∨
    (s.pc.extractLsb' 0 2 = 0#2 ∧
      (∃ d ∈ s.cfg.devices, contains d s.pc = true ∧ d.size < s.pc.toNat - d.base.toNat + 4) ∧
      c = .outOfBounds s.pc) := by
  unfold fetch pcLowBits at h
  split at h
  · next ha =>
    rcases load32_cases s.cfg.devices s.rom s.pc with ⟨hr, e⟩ | ⟨d, _, _, e⟩ | ⟨d, hr, hs, e⟩ <;>
      simp only [e, busCondition, Except.error.injEq, reduceCtorEq] at h
    · exact .inr (.inl ⟨ha, route_eq_none.1 hr, h.symm⟩)
    · exact .inr (.inr ⟨ha, ⟨d, (route_eq_some hr).1, (route_eq_some hr).2, hs⟩, h.symm⟩)
  · next ha => exact .inl ⟨ha, (Except.error.inj h).symm⟩

/-- The fetch looks at `pc`, the ROM and the configuration alone. -/
theorem fetch_congr {s t : State} (hp : s.pc = t.pc) (hr : s.rom = t.rom) (hc : s.cfg = t.cfg) : fetch s = fetch t := by
  unfold fetch pcLowBits
  rw [hp, hr, hc]

end Sys2Proof.Machine
end

