-- ==== Sys2Proof/Laws/Step.lean ====
section
/-! SUPPORT. Everything a step and a cycle can do, said once. -/

namespace Sys2Proof.Machine

/-- The one handler of this hardware (41_lui.md R90). -/
theorem exec_lui (rs rt : RegIdx) (imm16 : Imm16) (s : State) :
    exec (.lui rs rt imm16) s = .next (writeReg rt (upperImmediate imm16) s) := rfl

/-- Every instruction answers a next state that differs in one register at most. -/
theorem exec_eq (i : Instr) (s : State) : ∃ rt v, exec i s = .next (writeReg rt v s) := by
  cases i with
  | lui rs rt imm16 => exact ⟨rt, upperImmediate imm16, rfl⟩

/-- A step of a running block: the fetch faults, or the word is no instruction, or it is a `LUI` that runs
(40_fetch_decode_execute.md R80). -/
theorem coreStep_cases (s : State) :
    (∃ c, fetch s = .error c ∧ coreStep s = raise c s) ∨
    (∃ w, fetch s = .ok w ∧ w.extractLsb' 26 6 ≠ luiOpcode ∧
      coreStep s = raise (.unhandledInstruction w s.pc) (advancePc s)) ∨
    (∃ w, fetch s = .ok w ∧ w.extractLsb' 26 6 = luiOpcode ∧
      coreStep s =
        .next (writeReg (w.extractLsb' 16 5) (upperImmediate (w.extractLsb' 0 16)) (advancePc s))) := by
  cases hf : fetch s with
  | error c => exact .inl ⟨c, rfl, by simp [coreStep, hf]⟩
  | ok w =>
    by_cases h : w.extractLsb' 26 6 = luiOpcode
    · exact .inr (.inr ⟨w, rfl, h, by simp [coreStep, hf, decodeInstr_of_lui h, exec_lui]⟩)
    · exact .inr (.inl ⟨w, rfl, h, by simp [coreStep, hf, decodeInstr_of_not_lui h]⟩)

/-- A step that answers a next state is a `LUI` that ran. -/
theorem coreStep_next {s t : State} (h : coreStep s = .next t) :
    ∃ w, fetch s = .ok w ∧ w.extractLsb' 26 6 = luiOpcode ∧
      t = writeReg (w.extractLsb' 16 5) (upperImmediate (w.extractLsb' 0 16)) (advancePc s) := by
  rcases coreStep_cases s with ⟨c, _, e⟩ | ⟨w, _, _, e⟩ | ⟨w, hf, hw, e⟩ <;> rw [e] at h
  · cases h
  · cases h
  · exact ⟨w, hf, hw, (Host.Outcome.next.inj h).symm⟩

/-- A run of `k + 1` steps of any machine is a step and a run of `k` (Host/Core.lean). -/
theorem run_succ_of (M : Host.Core) (k : Nat) (s : M.State) :
    M.run (k + 1) s =
      match M.step s with
      | .next t => M.run k t
      | .fault f => .fault f
      | .refused r => .refused r := by
  cases h : M.step s <;> simp [Host.Core.run, h]

theorem run_succ_next_of (M : Host.Core) (k : Nat) {s t : M.State} (h : M.step s = .next t) :
    M.run (k + 1) s = M.run k t := by
  rw [run_succ_of, h]

theorem run_succ_fault_of (M : Host.Core) (k : Nat) {s : M.State} {f : M.Fault} (h : M.step s = .fault f) :
    M.run (k + 1) s = .fault f := by
  rw [run_succ_of, h]

/-- A run of this machine whose first step completes goes on from the next state. -/
theorem run_succ_next {s t : State} (k : Nat) (h : step s = .next t) :
    Host.Core.run Sys2Proof.core (k + 1) s = Host.Core.run Sys2Proof.core k t :=
  run_succ_next_of Sys2Proof.core k h

/-- A run of this machine whose first step faults is that fault. -/
theorem run_succ_fault {s : State} {f : Fault} (k : Nat) (h : step s = .fault f) :
    Host.Core.run Sys2Proof.core (k + 1) s = .fault f :=
  run_succ_fault_of Sys2Proof.core k h

/-- What a cycle can do (40_fetch_decode_execute.md R87): reset, hold, or one step of a running block. -/
theorem cycle_cases (inp : HostInputs) (s : State) :
    (inp.reset = true ∧ cycle inp s = .next (applyReset s)) ∨
    (inp.reset = false ∧ (s.halted = true ∨ inp.runEn = false) ∧ cycle inp s = .next s) ∨
    (inp.reset = false ∧ s.halted = false ∧ inp.runEn = true ∧ cycle inp s = coreStep s) := by
  unfold cycle
  cases inp.reset <;> cases s.halted <;> cases inp.runEn <;> simp

/-- `step` is a step of a running block, and holds a halted one. -/
theorem step_of_running {s : State} (h : s.halted = false) : step s = coreStep s := by
  simp [step, cycle, freeRun, h]

theorem step_of_halted {s : State} (h : s.halted = true) : step s = .next s := by
  simp [step, cycle, freeRun, h]

/-- What the block's state is after a cycle. -/
theorem cycleState_cases (s : State) (inp : HostInputs) :
    cycleState s inp = State.resetWith s.cfg s.rom ∨
    cycleState s inp = s ∨
    (s.halted = false ∧ ∃ c, fetch s = .error c ∧ cycleState s inp = haltWith c s) ∨
    (s.halted = false ∧ ∃ w, fetch s = .ok w ∧ w.extractLsb' 26 6 ≠ luiOpcode ∧
      cycleState s inp = haltWith (.unhandledInstruction w s.pc) (advancePc s)) ∨
    (s.halted = false ∧ ∃ w, fetch s = .ok w ∧ w.extractLsb' 26 6 = luiOpcode ∧
      cycleState s inp = writeReg (w.extractLsb' 16 5) (upperImmediate (w.extractLsb' 0 16)) (advancePc s)) := by
  unfold cycleState
  rcases cycle_cases inp s with ⟨_, e⟩ | ⟨_, _, e⟩ | ⟨_, hh, _, e⟩
  · exact .inl (by rw [e]; rfl)
  · exact .inr (.inl (by rw [e]; rfl))
  · rw [e]
    rcases coreStep_cases s with ⟨c, hf, e⟩ | ⟨w, hf, hw, e⟩ | ⟨w, hf, hw, e⟩ <;> rw [e]
    · exact .inr (.inr (.inl ⟨hh, c, hf, by cases c <;> rfl⟩))
    · exact .inr (.inr (.inr (.inl ⟨hh, w, hf, hw, rfl⟩)))
    · exact .inr (.inr (.inr (.inr ⟨hh, w, hf, hw, rfl⟩)))

@[simp] theorem runHost_nil (s : State) : runHost [] s = s := rfl
@[simp] theorem runHost_cons (inp : HostInputs) (inps : List HostInputs) (s : State) :
    runHost (inp :: inps) s = runHost inps (cycleState s inp) := rfl

/-- What holds at the start and is kept by every cycle holds after every run. -/
theorem runHost_induction {P : State → Prop} (hstep : ∀ s inp, P s → P (cycleState s inp)) (inps : List HostInputs)
    {s : State} (h : P s) : P (runHost inps s) := by
  induction inps generalizing s with
  | nil => exact h
  | cons inp inps ih => exact ih (hstep s inp h)

/-- A machine that construction answers (70_reset_and_hazards.md R133). -/
theorem construct_next {cfg : Cfg} {image : List Byte} {s : State} (h : construct cfg image = .next s) :
    image.length = cfg.biosSize ∧ legalTable cfg.devices = true ∧
      s = State.resetWith cfg (memoryOfImage cfg.biosBase.toNat image) := by
  unfold construct at h
  split at h
  · cases h
  · split at h
    · next h1 h2 => exact ⟨by simpa using h1, h2, by cases h; rfl⟩
    · cases h

end Sys2Proof.Machine
end

