-- ==== Sys2Proof/Laws/PerInstr.lean ====
section
/-! SUPPORT. Facts about every instruction as syntax, one lemma for each constructor. -/

namespace Sys2Proof.Laws

/-- The word of an instruction lies in the block the opcode table gives its row (30_encoding.md R66). -/
def EncodedInTableBlock.Statement (i : Instr) : Prop := encode i &&& 0xFC000000#32 = 0x3C000000#32

theorem EncodedInTableBlock.lui (rs rt : RegIdx) (imm16 : Imm16) :
    EncodedInTableBlock.Statement (.lui rs rt imm16) := by
  apply BitVec.eq_of_getLsbD_eq
  intro i hi
  simp only [encode, luiOpcode, BitVec.getLsbD_and, BitVec.getLsbD_append]
  have : i ∈ List.range 32 := by simpa using hi
  fin_cases this <;> simp

end Sys2Proof.Laws
end

