-- ==== Sys2Proof/Tests/Slice0.lean ====
section
/-! SUPPORT. Tests on small machines, each from a vector of spec/95_test_vectors.md or a rule it cites, the checks of
WellFormed on ill-formed terms, and for every statement with hypotheses a state and operands that meet them. -/

namespace Sys2Proof.Machine.Tests

/-! ### Small machines (95_test_vectors.md sections 2.4 and 3) -/

/-- A configuration of this hardware with its BIOS at `base`; `S = 0x80200000` stands for `SP_INIT`. -/
def cfgAt (base : Word) (size : Nat) : Cfg :=
  { resetVector := base, spInit := 0x80200000#32, biosBase := base, biosSize := size }

/-- The machine of a configuration and an image that construction accepts. -/
def built (cfg : Cfg) (image : List Byte) : State := State.resetWith cfg (memoryOfImage cfg.biosBase.toNat image)

def imageM : List Byte := [0x34#8, 0x12#8, 0x08#8, 0x3C#8, 0xEF#8, 0xBE#8, 0xAD#8, 0xDE#8]

/-- Configuration M: `lui $8, 0x1234` and then the word 0xDEADBEEF. -/
def machM : State := built (cfgAt 0xBFC00000#32 8) imageM

/-- Configuration M6: the first six bytes of M. -/
def machM6 : State := built (cfgAt 0xBFC00000#32 6) (imageM.take 6)

/-- Configuration MT: `lui $16, 0xDEAD` and `lui $17, 0xBEEF` at the top of the address space. -/
def machMT : State :=
  built (cfgAt 0xFFFFFFF8#32 8) [0xAD#8, 0xDE#8, 0x10#8, 0x3C#8, 0xEF#8, 0xBE#8, 0x11#8, 0x3C#8]

/-- Configuration M with the program counter at `pc`. -/
def machAt (pc : Word) : State := { machM with pc := pc }

/-- Two devices that touch (95_test_vectors.md V-C8). -/
def tableC8 : List Device :=
  [{ base := 0x1000#32, size := 0x10, kind := .rom }, { base := 0x1010#32, size := 0x10, kind := .rom }]

def isNext (p : State → Bool) : StepOutcome → Bool
  | .next t => p t
  | _ => false

/-- The fault record and `pc` an outcome leaves: kind, value, address, `pc`, and that the block is halted. -/
def faultsWith (kind : FaultKind) (value addr pc : Word) : StepOutcome → Bool
  | .fault f => (faultState f).halted && (faultState f).faultKind == kind && (faultState f).faultValue == value &&
      (faultState f).faultAddr == addr && (faultState f).pc == pc
  | _ => false

/-! ### WellFormed: one ill-formed table for each check (V-C5 to V-C8) -/

theorem test_table_empty_range_refused :
    legalTable [{ base := 0x1000#32, size := 0, kind := .rom }] = false := by decide
theorem test_table_past_space_refused :
    legalTable [{ base := 0xFFFFFFFC#32, size := 8, kind := .rom }] = false := by decide
theorem test_table_overlap_refused :
    legalTable [{ base := 0x1000#32, size := 0x10, kind := .rom }, { base := 0x100C#32, size := 0x14, kind := .rom }] =
      false := by decide
theorem test_table_touching_accepted : legalTable tableC8 = true := by decide
theorem test_instr_wellFormed : Instr.wellFormed (.lui 31#5 31#5 0xFFFF#16) = true := by decide

/-! ### Decode (V-D1 to V-D10): words written out from 30_encoding.md R63, `op | rs | rt | imm16` -/

theorem test_decode_lui :
    decodeInstr 0b001111_00000_01000_0001001000110100#32 = .ok (.lui 0#5 8#5 0x1234#16) := by decide
theorem test_decode_lui_every_field_differs :
    decodeInstr 0b001111_10001_00110_1000000000000011#32 = .ok (.lui 17#5 6#5 0x8003#16) := by decide
theorem test_decode_neighbours_rejected :
    decodeInstr 0x3BFFFFFF#32 = .error (.unhandledInstruction 0x3BFFFFFF#32) ∧
    decodeInstr 0x40000000#32 = .error (.unhandledInstruction 0x40000000#32) ∧
    decodeInstr 0x34081234#32 = .error (.unhandledInstruction 0x34081234#32) ∧
    decodeInstr 0x7C081234#32 = .error (.unhandledInstruction 0x7C081234#32) := by decide
theorem test_decode_bytes_little_endian :
    decodeBytes [0x34#8, 0x12#8, 0x08#8, 0x3C#8, 0x99#8] = .ok (.lui 0#5 8#5 0x1234#16, [0x99#8]) ∧
    decodeBytes [0x3C#8, 0x08#8, 0x12#8, 0x34#8] = .error (.unhandledInstruction 0x3412083C#32) ∧
    decodeBytes [0x34#8, 0x12#8, 0x08#8] = .error (.tooFewBytes 3) := by decide
theorem test_encode_lui : encodeBytes (.lui 0#5 8#5 0x1234#16) = [0x34#8, 0x12#8, 0x08#8, 0x3C#8] := by decide
theorem test_assemble_lui : assembleLui 29#5 0x8020#16 = 0x3C1D8020#32 := by decide
theorem test_decodeTableWord : decodeTableWord 32 0x3C000000 = some (.lui 0#5 0#5 0#16) ∧
    decodeTableWord 32 0x3FE81234 = some (.lui 31#5 8#5 0x1234#16) ∧ decodeTableWord 32 0 = none := by decide

/-! ### LUI (V-L11, V-L5) -/

theorem test_lui_replaces_old_value :
    isNext (fun t => readReg 8#5 t == 0x12340000#32 && readReg 9#5 t == 7#32)
      (exec (.lui 31#5 8#5 0x1234#16) (writeReg 8#5 0xFFFFFFFF#32 (writeReg 9#5 7#32 machM))) = true := by decide
theorem test_lui_to_zero_changes_nothing :
    isNext (fun t => t == machM) (exec (.lui 0#5 0#5 0xABCD#16) machM) = true := by decide

/-! ### Load32 (V-M1 to V-M22) -/

theorem test_load_answers_words :
    load32 machM.cfg.devices machM.rom 0xBFC00000#32 = .ok 0x3C081234#32 ∧
    load32 machM.cfg.devices machM.rom 0xBFC00004#32 = .ok 0xDEADBEEF#32 ∧
    load32 machM.cfg.devices machM.rom 0xBFC00001#32 = .ok 0xEF3C0812#32 ∧
    load32 machM6.cfg.devices machM6.rom 0xBFC00002#32 = .ok 0xBEEF3C08#32 ∧
    load32 machMT.cfg.devices machMT.rom 0xFFFFFFFC#32 = .ok 0x3C11BEEF#32 := by decide
theorem test_load_out_of_bounds :
    load32 machM.cfg.devices machM.rom 0xBFC00005#32 = .error (.outOfBounds 0xBFC00005#32) ∧
    load32 machM.cfg.devices machM.rom 0xBFC00007#32 = .error (.outOfBounds 0xBFC00007#32) ∧
    load32 machM6.cfg.devices machM6.rom 0xBFC00004#32 = .error (.outOfBounds 0xBFC00004#32) ∧
    load32 machMT.cfg.devices machMT.rom 0xFFFFFFFD#32 = .error (.outOfBounds 0xFFFFFFFD#32) ∧
    devLoad32 machM.rom { base := 0xBFC00000#32, size := 8, kind := .rom } 0xFFFFFFFE#32 = none := by decide
theorem test_load_unmapped :
    load32 machM.cfg.devices machM.rom 0xBFBFFFFF#32 = .error (.unmappedAddress 0xBFBFFFFF#32) ∧
    load32 machM.cfg.devices machM.rom 0xBFC00008#32 = .error (.unmappedAddress 0xBFC00008#32) ∧
    load32 machMT.cfg.devices machMT.rom 0xFFFFFFF7#32 = .error (.unmappedAddress 0xFFFFFFF7#32) ∧
    load32 machMT.cfg.devices machMT.rom 0#32 = .error (.unmappedAddress 0#32) := by decide

/-! ### One step (V-S1 to V-S9, P4, P6) -/

theorem test_step_lui :
    isNext (fun t => t.pc == 0xBFC00004#32 && readReg 8#5 t == 0x12340000#32 && readReg 29#5 t == 0x80200000#32 &&
      !t.halted) (step machM) = true := by decide
theorem test_step_wraps_pc :
    isNext (fun t => t.pc == 0#32 && readReg 17#5 t == 0xBEEF0000#32) (step { machMT with pc := 0xFFFFFFFC#32 }) =
      true := by decide
theorem test_step_unhandled :
    faultsWith .unhandledInstruction 0xDEADBEEF#32 0xBFC00004#32 0xBFC00008#32 (step (machAt 0xBFC00004#32)) = true := by
  decide
theorem test_step_unmapped :
    faultsWith .unmappedAddress 0xBFC00008#32 0xBFC00008#32 0xBFC00008#32 (step (machAt 0xBFC00008#32)) = true := by
  decide
theorem test_step_misaligned_first :
    faultsWith .misalignedFetch 0xBFC00002#32 0xBFC00002#32 0xBFC00002#32 (step (machAt 0xBFC00002#32)) = true ∧
    faultsWith .misalignedFetch 1#32 1#32 1#32 (step (machAt 1#32)) = true := by decide
theorem test_step_out_of_bounds :
    faultsWith .outOfBounds 0xBFC00004#32 0xBFC00004#32 0xBFC00004#32 (step { machM6 with pc := 0xBFC00004#32 }) =
      true := by decide
theorem test_halted_holds_and_reset_restarts :
    isNext (fun t => t == haltWith (.unmappedAddress 0#32) machM) (step (haltWith (.unmappedAddress 0#32) machM)) = true ∧
    isNext (fun t => t == machM)
      (cycle { reset := true, runEn := true } (haltWith (.unmappedAddress 0#32) (machAt 0#32))) = true := by decide
theorem test_first_step_after_reset :
    isNext (fun t => t.pc == 0xBFC00004#32 && readReg 8#5 t == 0x12340000#32)
      (step (State.reset.withFetchWord 32 0x3C081234)) = true := by decide

/-! ### Construction (V-C1 to V-C6) -/

theorem test_construct_accepts : construct (cfgAt 0xBFC00000#32 8) imageM = .next machM := by rfl
theorem test_construct_wrong_size :
    construct (cfgAt 0xBFC00000#32 8) (imageM.take 7) = .refused (.corruptImage 7) ∧
    construct (cfgAt 0xBFC00000#32 8) (imageM ++ [0#8]) = .refused (.corruptImage 9) ∧
    construct (cfgAt 0xBFC00000#32 8) [] = .refused (.corruptImage 0) := ⟨rfl, rfl, rfl⟩
theorem test_construct_bad_table :
    construct (cfgAt 0xBFC00000#32 0) [] = .refused .badDeviceTable ∧
    construct (cfgAt 0xFFFFFFFC#32 8) imageM = .refused .badDeviceTable := ⟨rfl, rfl⟩

/-! ### Witnesses: the hypotheses of each statement met together, clause by clause -/

theorem machM_fetches : Fetches machM 0x3C081234#32 := ⟨rfl, rfl⟩
theorem machM_fetches_other : Fetches (machAt 0xBFC00004#32) 0xDEADBEEF#32 := ⟨rfl, rfl⟩

theorem witness_RegisterFileReadsWhatWasWritten : (31#5 : RegIdx) ≠ 0#5 ∧ (0#5 : RegIdx) ≠ 31#5 := by decide
theorem witness_BothRegisterWritesAgree : machM.regs[0] = 0#32 := by decide
theorem witness_PcAdvanceWrapsAndTouchesOnlyPc : (machAt 0xFFFFFFFC#32).pc = 0xFFFFFFFC#32 := rfl
theorem witness_RegistersChangeOnlyByInstructionOrReset :
    (cycleState machM freeRun).regs ≠ machM.regs ∧
    (cycleState (writeReg 1#5 1#32 machM) { reset := true, runEn := false }).regs ≠ (writeReg 1#5 1#32 machM).regs ∧
    ∃ f, cycle freeRun (machAt 1#32) = .fault f := ⟨by decide, by decide, _, rfl⟩
theorem witness_RegistersNeverSteerExecution :
    SameButRegs machM (writeReg 1#5 1#32 machM) ∧ writeReg 1#5 1#32 machM ≠ machM := ⟨rfl, by decide⟩
theorem witness_DecodeAndEncodeAgree :
    decodeBytes [0xFF#8, 0xFF#8, 0xFF#8, 0x3F#8] = .ok (.lui 31#5 31#5 0xFFFF#16, []) := by decide
theorem witness_OtherOpcodesAreUnhandled :
    (0xDEADBEEF#32 : Word).extractLsb' 26 6 ≠ 0b001111#6 ∧ (machAt 0xBFC00004#32).halted = false ∧
    Fetches (machAt 0xBFC00004#32) 0xDEADBEEF#32 := ⟨by decide, rfl, machM_fetches_other⟩
theorem witness_UnclaimedAddressesAreUnmapped :
    (machAt 0xBFC00008#32).halted = false ∧ (machAt 0xBFC00008#32).pc.extractLsb' 0 2 = 0#2 ∧
    (∀ d ∈ (machAt 0xBFC00008#32).cfg.devices, contains d (machAt 0xBFC00008#32).pc = false) ∧
    load32 machM.cfg.devices machM.rom 0xBFC00004#32 = .ok 0xDEADBEEF#32 := ⟨rfl, rfl, by decide, rfl⟩
theorem witness_LoadInsideADeviceAnswersBytesOrOutOfBounds :
    legalTable tableC8 = true ∧
    (∃ d ∈ tableC8, contains d 0x100C#32 = true ∧ (0x100C#32 : Word).toNat - d.base.toNat + 4 ≤ d.size) ∧
    ∃ d ∈ tableC8, contains d 0x100D#32 = true ∧ d.size < (0x100D#32 : Word).toNat - d.base.toNat + 4 := by decide
theorem witness_RoutingOrderIsUnobservable : legalTable tableC8 = true ∧ tableC8.Perm tableC8.reverse := by decide
theorem witness_WordsAreLittleEndian :
    load32 machM.cfg.devices machM.rom 0xBFC00004#32 = .ok 0xDEADBEEF#32 ∧ fetch machM = .ok 0x3C081234#32 :=
  ⟨rfl, rfl⟩
theorem witness_OnlyWordLoadsExist : (2 : Nat) ≠ 4 ∧ (3 : Nat) ≠ 4 ∧ (5 : Nat) ≠ 4 := by decide
theorem witness_AtMostOneDeviceAnswersARequest :
    legalTable tableC8 = true ∧
    (∃ d ∈ tableC8, (devicePorts [] d 0x1010#32).sel = true ∧ (devicePorts [] d 0x1010#32).oob = false) ∧
    (∃ d ∈ tableC8, (devicePorts [] d 0x101D#32).sel = true ∧ (devicePorts [] d 0x101D#32).oob = true) ∧
    ∀ d ∈ tableC8, (devicePorts [] d 0x1020#32).sel = false := by decide
theorem witness_CoreRequestsAnAlignedPcOnly :
    freeRun.reset = false ∧ freeRun.runEn = true ∧ machM.halted = false ∧ machM.pc.extractLsb' 0 2 = 0#2 ∧
    fetch machM = .ok 0x3C081234#32 ∧ (machAt 0xBFC00001#32).pc.extractLsb' 0 2 ≠ 0#2 ∧
    (haltWith (.unmappedAddress 0#32) (machAt 0#32)).halted = true := by decide
theorem witness_StepRunsTheDecodedInstruction :
    machM.halted = false ∧ machM.pc.extractLsb' 0 2 = 0#2 ∧
    (∃ d ∈ machM.cfg.devices, contains d machM.pc = true ∧ machM.pc.toNat - d.base.toNat + 4 ≤ d.size) ∧
    decodeBytes [readByte machM.rom machM.pc.toNat, readByte machM.rom (machM.pc.toNat + 1),
      readByte machM.rom (machM.pc.toNat + 2), readByte machM.rom (machM.pc.toNat + 3)] =
        .ok (.lui 0#5 8#5 0x1234#16, []) := by decide
theorem witness_DispatchLooksAtThePrimaryOpcodeOnly :
    machM.halted = false ∧ Fetches machM 0x3C081234#32 ∧ (0x3C081234#32 : Word).extractLsb' 26 6 = 0b001111#6 ∧
    Fetches (machAt 0xBFC00004#32) 0xDEADBEEF#32 ∧ (0xDEADBEEF#32 : Word).extractLsb' 26 6 ≠ 0b001111#6 :=
  ⟨rfl, machM_fetches, by decide, machM_fetches_other, by decide⟩
theorem witness_StepOfALuiWordCompletes :
    machM.halted = false ∧ Fetches machM 0x3C081234#32 ∧ (0x3C081234#32 : Word).extractLsb' 26 6 = 0b001111#6 :=
  ⟨rfl, machM_fetches, by decide⟩
theorem witness_ExecutionIsStrictlySequential :
    machMT.halted = false ∧ ∃ t : State, Host.Core.run Sys2Proof.core 2 machMT = .next t := ⟨rfl, _, rfl⟩
theorem witness_StepTouchesNothingElse :
    machM.halted = false ∧ (∃ t, step machM = .next t) ∧ (∃ f, step (machAt 0xBFC00004#32) = .fault f) ∧
    ∃ f, step (machAt 1#32) = .fault f := ⟨rfl, ⟨_, rfl⟩, ⟨_, rfl⟩, _, rfl⟩
theorem witness_StepAnswersNextStateOrFault :
    construct (cfgAt 0#32 8) [] = .refused (.corruptImage 0) ∧ construct (cfgAt 0#32 0) [] = .refused .badDeviceTable :=
  ⟨rfl, rfl⟩
theorem witness_MisalignedPcFaults :
    (machAt 3#32).halted = false ∧ (machAt 3#32).pc.extractLsb' 0 2 ≠ 0#2 := by decide
theorem witness_UnmappedPcFaults :
    (machAt 0#32).halted = false ∧ (machAt 0#32).pc.extractLsb' 0 2 = 0#2 ∧
    ∀ d ∈ (machAt 0#32).cfg.devices, contains d (machAt 0#32).pc = false := by decide
theorem witness_FetchPastTheEndOfADeviceFaults :
    let s : State := { machM6 with pc := 0xBFC00004#32 }
    s.halted = false ∧ s.pc.extractLsb' 0 2 = 0#2 ∧
    ∃ d ∈ s.cfg.devices, contains d s.pc = true ∧ d.size < s.pc.toNat - d.base.toNat + 4 := by decide
theorem witness_UnhandledWordFaultsAfterTheAdvance :
    (machAt 0xBFC00004#32).halted = false ∧ Fetches (machAt 0xBFC00004#32) 0xDEADBEEF#32 ∧
    (0xDEADBEEF#32 : Word).extractLsb' 26 6 ≠ 0b001111#6 := ⟨rfl, machM_fetches_other, by decide⟩
theorem witness_EachOutcomeHasItsExactCondition : machM.halted = false ∧ (machAt 1#32).halted = false := by decide
theorem witness_HaltedIsAbsorbingUntilReset :
    (haltWith (.unmappedAddress 0#32) (machAt 0#32)).halted = true ∧
    ∀ inp ∈ [freeRun, { reset := false, runEn := false }], inp.reset = false := by decide
theorem witness_FaultCodesAreDistinct :
    ∃ f, raise (.unhandledInstruction 0xDEADBEEF#32 4#32) machM = .fault f := ⟨_, rfl⟩
theorem witness_ConstructionChecksThenLoadsTheImage :
    ([] : List Byte).length ≠ (cfgAt 0#32 8).biosSize ∧
    (imageM.length = (cfgAt 0xFFFFFFFC#32 8).biosSize ∧ legalTable (cfgAt 0xFFFFFFFC#32 8).devices = false) ∧
    (imageM.length = (cfgAt 0xFFFFFFF8#32 8).biosSize ∧ legalTable (cfgAt 0xFFFFFFF8#32 8).devices = true) ∧
    imageM[7]? = some 0xDE#8 := by decide
theorem witness_ModelResetIsAConstructedMachine : legalTable Config.runner.devices = true := by decide
theorem witness_HostSeesAWrittenRegisterAtOnce : (31#5 : RegIdx) ≠ 0#5 := by decide
theorem witness_PlacedWordIsRunNext :
    Memory.wf machM.rom = true ∧ machM.halted = false ∧ machM.pc.extractLsb' 0 2 = 0#2 ∧
    (∃ d ∈ machM.cfg.devices, contains d machM.pc = true ∧ machM.pc.toNat - d.base.toNat + 4 ≤ d.size) ∧
    decodeInstr 0x3C00FF00#32 = .ok (.lui 0#5 0#5 0xFF00#16) := by decide

/-- A running state and a halted one meet the invariant. -/
theorem witness_EveryStepKeepsTheInvariant :
    BlockInv machM ∧ BlockInv (haltWith (.unmappedAddress 0#32) (machAt 0#32)) :=
  ⟨⟨rfl, rfl, by decide, by decide, fun _ => ⟨rfl, rfl, rfl⟩, fun h => Bool.noConfusion h⟩,
    ⟨rfl, rfl, by decide, by decide, fun h => Bool.noConfusion h, fun _ => ⟨rfl, by decide, rfl, rfl⟩⟩⟩

theorem witness_EveryReachableStateMeetsTheInvariant : construct (cfgAt 0xBFC00000#32 8) imageM = .next machM := by rfl
theorem witness_RomHoldsTheImageForEver :
    construct (cfgAt 0xBFC00000#32 8) imageM = .next machM ∧ imageM[4]? = some 0xEF#8 ∧ imageM[5]? = some 0xBE#8 ∧
    imageM[6]? = some 0xAD#8 ∧ imageM[7]? = some 0xDE#8 := ⟨rfl, rfl, rfl, rfl, rfl⟩
theorem witness_AlignedResetVectorKeepsPcAligned :
    construct (cfgAt 0xBFC00000#32 8) imageM = .next machM ∧
    (cfgAt 0xBFC00000#32 8).resetVector.extractLsb' 0 2 = 0#2 := ⟨rfl, rfl⟩
theorem witness_EveryCycleKeepsPcAligned :
    (machAt 0xFFFFFFFC#32).cfg.resetVector.extractLsb' 0 2 = 0#2 ∧ (machAt 0xFFFFFFFC#32).pc.extractLsb' 0 2 = 0#2 ∧
    (machAt 0xFFFFFFFC#32).faultKind ≠ .misalignedFetch := by decide
theorem witness_RunEndsWithinTheImageUnlessAllSpaceIsLui :
    construct (cfgAt 0xBFC00000#32 8) imageM = .next machM ∧ (cfgAt 0xBFC00000#32 8).thisHardware = true ∧
    ¬((cfgAt 0xBFC00000#32 8).biosBase = 0#32 ∧ (cfgAt 0xBFC00000#32 8).biosSize = 2 ^ 32 ∧
      ∀ k b, k % 4 = 3 → imageM[k]? = some b → b.extractLsb' 2 6 = 0b001111#6) ∧
    (cfgAt 0xBFC00000#32 8).resetVector.extractLsb' 0 2 = 0#2 :=
  ⟨rfl, rfl, fun h => absurd h.1 (by decide), rfl⟩

/-- The 4 GiB machine at base 0 with a word that is not `LUI`: it meets the statement's hypotheses too. -/
theorem witness_RunEnds_whole_space :
    (∃ s, construct (cfgAt 0#32 (2 ^ 32)) (List.replicate (2 ^ 32) 0#8) = .next s) ∧
    (cfgAt 0#32 (2 ^ 32)).thisHardware = true ∧
    ¬((cfgAt 0#32 (2 ^ 32)).biosBase = 0#32 ∧ (cfgAt 0#32 (2 ^ 32)).biosSize = 2 ^ 32 ∧
      ∀ k b, k % 4 = 3 → (List.replicate (2 ^ 32) 0#8)[k]? = some b → b.extractLsb' 2 6 = 0b001111#6) := by
  refine ⟨⟨built (cfgAt 0#32 (2 ^ 32)) (List.replicate (2 ^ 32) 0#8), ?_⟩, rfl, fun h => ?_⟩
  · have hl : (List.replicate (2 ^ 32) 0#8).length = (cfgAt 0#32 (2 ^ 32)).biosSize := List.length_replicate
    have ht : legalTable (cfgAt 0#32 (2 ^ 32)).devices = true := by decide
    unfold construct built
    rw [if_neg (not_not.2 hl), if_pos ht]
  · exact absurd (h.2.2 3 0#8 rfl (List.getElem?_replicate_of_lt (by norm_num))) (by decide)

/-- A 4 GiB image at base 0 whose every byte is 0x3C: each word is `LUI`. -/
theorem witness_DegenerateImageRunsForEver :
    (∃ s, construct (cfgAt 0#32 (2 ^ 32)) (List.replicate (2 ^ 32) 0x3C#8) = .next s) ∧
    (cfgAt 0#32 (2 ^ 32)).thisHardware = true ∧ (cfgAt 0#32 (2 ^ 32)).biosBase = 0#32 ∧
    (cfgAt 0#32 (2 ^ 32)).biosSize = 2 ^ 32 ∧
    ∀ k b, k % 4 = 3 → (List.replicate (2 ^ 32) 0x3C#8)[k]? = some b → b.extractLsb' 2 6 = 0b001111#6 := by
  refine ⟨⟨built (cfgAt 0#32 (2 ^ 32)) (List.replicate (2 ^ 32) 0x3C#8), ?_⟩, rfl, rfl, rfl, fun k b _ h => ?_⟩
  · have hl : (List.replicate (2 ^ 32) 0x3C#8).length = (cfgAt 0#32 (2 ^ 32)).biosSize := List.length_replicate
    have ht : legalTable (cfgAt 0#32 (2 ^ 32)).devices = true := by decide
    unfold construct built
    rw [if_neg (not_not.2 hl), if_pos ht]
  · have hb : b = 0x3C#8 := List.eq_of_mem_replicate (List.mem_of_getElem? h)
    subst hb
    decide

end Sys2Proof.Machine.Tests
end

section
/-! SUPPORT. Which outcomes a fatal condition, a step and a construction can have (00_scope.md R8). -/

namespace Sys2Proof.Machine

/-- 60_exceptions.md R106: raising ends the step as a fault, whatever the condition. -/
theorem raise_is_fault (c : FatalCondition) (s : State) : ∃ f, raise c s = .fault f := ⟨_, rfl⟩

/-- A step of a running block is never refused. -/
theorem coreStep_next_or_fault (s : State) : (∃ t, coreStep s = .next t) ∨ ∃ f, coreStep s = .fault f := by
  rcases coreStep_cases s with ⟨c, _, e⟩ | ⟨w, _, _, e⟩ | ⟨w, _, _, e⟩ <;> rw [e]
  · exact .inr (raise_is_fault c s)
  · exact .inr (raise_is_fault _ _)
  · exact .inl ⟨_, rfl⟩

/-- A step is never refused: a halted block holds its state, a running one takes a step of the core. -/
theorem step_next_or_fault (s : State) : (∃ t, step s = .next t) ∨ ∃ f, step s = .fault f := by
  cases h : s.halted with
  | true => exact .inl ⟨s, step_of_halted h⟩
  | false => rw [step_of_running h]; exact coreStep_next_or_fault s

/-- The two refusals of a construction with their conditions (60_exceptions.md R105, 70_reset_and_hazards.md R134). -/
theorem construct_refused {cfg : Cfg} {image : List Byte} {r : Refusal} (h : construct cfg image = .refused r) :
    r = .corruptImage image.length ∧ image.length ≠ cfg.biosSize ∨
      r = .badDeviceTable ∧ legalTable cfg.devices = false := by
  unfold construct at h
  split at h
  · next hlen => exact .inl ⟨(Host.Outcome.refused.inj h).symm, hlen⟩
  · split at h
    · cases h
    · next htab => exact .inr ⟨(Host.Outcome.refused.inj h).symm, Bool.eq_false_iff.2 htab⟩

/-- Settles O29: steps and raised conditions by the cases of the step, refusals by the two checks of `construct`. -/
theorem stepAnswersNextStateOrFault : Obligations.StepAnswersNextStateOrFault :=
  ⟨step_next_or_fault, raise_is_fault, fun _ _ _ => construct_refused⟩

end Sys2Proof.Machine
end

section
/-! SUPPORT. What a cycle does to the register file: a fault leaves it as it was, an executed instruction or reset is
the only writer (10_state.md R14 and R17). -/

namespace Sys2Proof.Machine

/-- Settles O3: what a write does to every register, read at the written index, at index 0 and elsewhere. -/
theorem registerFileReadsWhatWasWritten : Obligations.RegisterFileReadsWhatWasWritten := by
  intro i v s
  refine ⟨fun hi => ?_, readReg_zero _, readReg_zero _, fun j hj => ?_⟩
  · rw [readReg_after_writeReg, if_pos ⟨rfl, hi⟩]
  · rw [readReg_after_writeReg, if_neg fun h => hj h.1]

/-- A step of a running block is a fault that leaves the registers as they were, or it runs the instruction it
fetched. -/
theorem coreStep_fault_or_exec (s : State) :
    (∃ f, coreStep s = .fault f ∧ (faultState f).regs = s.regs) ∨
    ∃ w i, Fetches s w ∧ decodeInstr w = .ok i ∧ coreStep s = exec i (advancePc s) := by
  rcases coreStep_cases s with ⟨c, _, e⟩ | ⟨w, _, _, e⟩ | ⟨w, hf, hw, e⟩
  · obtain ⟨f, hr⟩ := raise_is_fault c s
    exact .inl ⟨f, e.trans hr, by rw [faultState_of_raise hr, haltWith_regs]⟩
  · obtain ⟨f, hr⟩ := raise_is_fault (.unhandledInstruction w s.pc) (advancePc s)
    exact .inl ⟨f, e.trans hr, by rw [faultState_of_raise hr, haltWith_regs, advancePc_regs]⟩
  · exact .inr ⟨w, _, fetch_ok.1 hf, decodeInstr_of_lui hw, e⟩

/-- A step that faults writes no register. -/
theorem coreStep_fault_regs {s : State} {f : Fault} (h : coreStep s = .fault f) : (faultState f).regs = s.regs := by
  rcases coreStep_fault_or_exec s with ⟨f', e, hregs⟩ | ⟨_, i, _, _, e⟩
  · obtain rfl : f' = f := Host.Outcome.fault.inj (e.symm.trans h)
    exact hregs
  · obtain ⟨_, _, hexec⟩ := exec_eq i (advancePc s)
    cases hexec.symm.trans (e.symm.trans h)

/-- A cycle that faults writes no register: only a step of a running block can fault. -/
theorem cycle_fault_regs {inp : HostInputs} {s : State} {f : Fault} (h : cycle inp s = .fault f) :
    (faultState f).regs = s.regs := by
  rcases cycle_cases inp s with ⟨_, e⟩ | ⟨_, _, e⟩ | ⟨_, _, _, e⟩
  · cases e.symm.trans h
  · cases e.symm.trans h
  · exact coreStep_fault_regs (e.symm.trans h)

/-- The writers of the register file in a cycle: reset, and the instruction a running, enabled block executes. -/
theorem cycleState_regs_changed {inp : HostInputs} {s : State} (h : (cycleState s inp).regs ≠ s.regs) :
    inp.reset = true ∨
      (s.halted = false ∧ inp.runEn = true ∧
        ∃ w i, Fetches s w ∧ decodeInstr w = .ok i ∧ cycle inp s = exec i (advancePc s)) := by
  rcases cycle_cases inp s with ⟨hreset, _⟩ | ⟨_, _, e⟩ | ⟨_, hrun, hen, e⟩
  · exact .inl hreset
  · exact absurd (by rw [cycleState, e]; rfl) h
  · rcases coreStep_fault_or_exec s with ⟨f, ef, hregs⟩ | ⟨w, i, hw, hi, ei⟩
    · exact absurd (by rw [cycleState, e, ef]; exact hregs) h
    · exact .inr ⟨hrun, hen, w, i, hw, hi, e.trans ei⟩

/-- Settles O6, by the cases of a cycle and of the step in it. -/
theorem registersChangeOnlyByInstructionOrReset : Obligations.RegistersChangeOnlyByInstructionOrReset :=
  fun _ _ => ⟨cycleState_regs_changed, fun _ => cycle_fault_regs⟩

end Sys2Proof.Machine
end

section
/-! SUPPORT. What a word the Interconnect answers is made of, and what an unclaimed address leads to (20_memory.md R37,
R39, R41). -/

namespace Sys2Proof

/-- 20_memory.md R41: the bytes of a word put together from four bytes are those bytes, the lowest address first. -/
theorem bytesOfWord_wordOfBytes (b0 b1 b2 b3 : Byte) : bytesOfWord (wordOfBytes b0 b1 b2 b3) = [b0, b1, b2, b3] := by
  simp only [bytesOfWord, List.cons.injEq, and_true]
  refine ⟨?_, ?_, ?_, ?_⟩
  all_goals
    apply BitVec.eq_of_getLsbD_eq
    intro i hi
    rw [BitVec.getLsbD_extractLsb', getLsbD_wordOfBytes]
    grind

/-- 30_encoding.md R61 with 20_memory.md R41: the primary opcode is the top six bits of a word's fourth byte. -/
theorem decodeFields_op_eq_fourth_byte (w : Word) : (decodeFields w).op = (w.extractLsb' 24 8).extractLsb' 2 6 := by
  apply BitVec.eq_of_getLsbD_eq
  intro i hi
  simp only [decodeFields, BitVec.getLsbD_extractLsb']
  grind

end Sys2Proof

namespace Sys2Proof.Machine

/-- The bytes of a word that `Load32` answers are the memory's at the address and the three after it. -/
theorem bytesOfWord_of_load32 {ds : List Device} {rom : Memory} {addr w : Word} (h : load32 ds rom addr = .ok w) :
    bytesOfWord w = [readByte rom addr.toNat, readByte rom (addr.toNat + 1), readByte rom (addr.toNat + 2),
      readByte rom (addr.toNat + 3)] := by
  rw [(load32_ok h).1, bytesOfWord_wordOfBytes]

/-- 20_memory.md R39: `Load32` answers UnmappedAddress exactly at the addresses that no device claims. -/
theorem load32_unmapped_iff {ds : List Device} {rom : Memory} {addr : Word} :
    load32 ds rom addr = .error (.unmappedAddress addr) ↔ ∀ d ∈ ds, contains d addr = false := by
  rw [← route_eq_none]
  rcases load32_cases ds rom addr with ⟨hr, e⟩ | ⟨d, hr, _, e⟩ | ⟨d, hr, _, e⟩ <;> simp [hr, e]

/-- At an aligned `pc` the fetch fails as the Interconnect does (40_fetch_decode_execute.md R81). -/
theorem fetch_of_load32_error {s : State} {f : BusFault} (hpc : s.pc.extractLsb' 0 2 = 0#2)
    (h : load32 s.cfg.devices s.rom s.pc = .error f) : fetch s = .error (busCondition f) := by
  simp [fetch, pcLowBits, hpc, h]

/-- A running block whose fetch fails raises the condition the fetch reports. -/
theorem step_of_fetch_error {s : State} {c : FatalCondition} (hrun : s.halted = false) (h : fetch s = .error c) :
    step s = raise c s := by
  rw [step_of_running hrun, coreStep, h]

/-- A running block whose aligned `pc` no device claims raises UnmappedAddress (60_exceptions.md R101). -/
theorem step_of_unclaimed_pc {s : State} (hrun : s.halted = false) (hpc : s.pc.extractLsb' 0 2 = 0#2)
    (h : ∀ d ∈ s.cfg.devices, contains d s.pc = false) : step s = raise (.unmappedAddress s.pc) s :=
  step_of_fetch_error hrun (fetch_of_load32_error hpc (load32_unmapped_iff.2 h))

/-- Settles O15: the two forms differ by moving `base` across the inequality, once `base ≤ addr`. -/
theorem containmentIsTheHalfOpenRange : Obligations.ContainmentIsTheHalfOpenRange := by
  intro d addr
  refine ⟨contains_iff, contains_iff.trans ?_⟩
  omega

/-- Settles O16: the answers of `Load32`, and the fault they become in a step of a running block. -/
theorem unclaimedAddressesAreUnmapped : Obligations.UnclaimedAddressesAreUnmapped := by
  intro ds rom addr
  refine ⟨load32_unmapped_iff.symm, fun w hw => ?_, fun s hrun hpc hun => ?_⟩
  · obtain ⟨_, d, hd, hc, _⟩ := load32_ok hw
    exact ⟨d, hd, hc⟩
  · obtain ⟨f, hf⟩ := raise_is_fault (.unmappedAddress s.pc) s
    exact ⟨f, (step_of_unclaimed_pc hrun hpc hun).trans hf, by rw [faultState_of_raise hf, haltWith_halted]⟩

/-- Settles O20: the answered word's bytes one by one, and a fetch as a `Load32` of `pc`. -/
theorem wordsAreLittleEndian : Obligations.WordsAreLittleEndian := by
  refine ⟨fun ds rom addr w hw => ?_, fun s w hf => (fetch_ok.1 hf).2⟩
  have hbytes := bytesOfWord_of_load32 hw
  simp only [bytesOfWord, List.cons.injEq, and_true] at hbytes
  obtain ⟨h0, h1, h2, h3⟩ := hbytes
  exact ⟨h0, h1, h2, h3, by rw [decodeFields_op_eq_fourth_byte, h3]⟩

end Sys2Proof.Machine
end

section
/-! SUPPORT. The decoder and the encoder are inverse (30_encoding.md R61 to R66, 20_memory.md R41). -/

namespace Sys2Proof

/-- Bit `i` of an encoded `LUI`: the bit of the field that holds it (30_encoding.md R63). -/
theorem getLsbD_encode_lui (rs rt : RegIdx) (imm16 : Imm16) (i : Nat) :
    (encode (.lui rs rt imm16)).getLsbD i =
      if i < 16 then imm16.getLsbD i else if i < 21 then rt.getLsbD (i - 16)
      else if i < 26 then rs.getLsbD (i - 21) else luiOpcode.getLsbD (i - 26) := by
  simp only [encode, BitVec.getLsbD_append]
  grind

/-- Decoding an encoded `LUI` gives its four fields back. -/
theorem decodeFields_encode_lui (rs rt : RegIdx) (imm16 : Imm16) :
    decodeFields (encode (.lui rs rt imm16)) = { op := luiOpcode, rs := rs, rt := rt, imm16 := imm16 } := by
  simp only [decodeFields, Fields.mk.injEq]
  refine ⟨?_, ?_, ?_, ?_⟩
  all_goals
    apply BitVec.eq_of_getLsbD_eq
    intro i hi
    rw [BitVec.getLsbD_extractLsb', getLsbD_encode_lui]
    grind

/-- Settles O8: each bit of the word stands in the field whose range holds it. -/
theorem fieldsPartitionTheWord : Obligations.FieldsPartitionTheWord := by
  intro w
  apply BitVec.eq_of_getLsbD_eq
  intro i hi
  simp only [decodeFields, BitVec.getLsbD_append, BitVec.getLsbD_extractLsb']
  grind

/-- A word is an instruction exactly when its primary opcode is that of `LUI` (30_encoding.md R65). -/
theorem exists_decodeInstr_iff {w : Word} : (∃ i, decodeInstr w = .ok i) ↔ w.extractLsb' 26 6 = luiOpcode := by
  refine ⟨fun ⟨i, hi⟩ => ?_, fun h => ⟨_, decodeInstr_of_lui h⟩⟩
  by_contra h
  cases (decodeInstr_of_not_lui h).symm.trans hi

/-- Every instruction's word decodes to that instruction. -/
theorem decodeInstr_encode (i : Instr) : decodeInstr (encode i) = .ok i := by
  cases i with
  | lui rs rt imm16 => simp [decodeInstr, decodeFields_encode_lui]

/-- A word that decodes is the word of the instruction it decodes to: the fields partition it. -/
theorem encode_of_decodeInstr {w : Word} {i : Instr} (h : decodeInstr w = .ok i) : encode i = w := by
  have hop : w.extractLsb' 26 6 = luiOpcode := exists_decodeInstr_iff.1 ⟨i, h⟩
  obtain rfl := Except.ok.inj ((decodeInstr_of_lui hop).symm.trans h)
  have hw := fieldsPartitionTheWord w
  simp only [decodeFields, hop] at hw
  exact hw

/-- The bytes of a word decode as the word does, and what follows them is left. -/
theorem decodeBytes_bytesOfWord {w : Word} {i : Instr} (rest : List Byte) (h : decodeInstr w = .ok i) :
    decodeBytes (bytesOfWord w ++ rest) = .ok (i, rest) := by
  simp [bytesOfWord, decodeBytes, wordOfBytes_bytesOfWord, h]

/-- A byte sequence that decodes starts with four bytes whose word is the instruction. -/
theorem decodeBytes_ok {bs rest : List Byte} {i : Instr} (h : decodeBytes bs = .ok (i, rest)) :
    ∃ b0 b1 b2 b3, bs = b0 :: b1 :: b2 :: b3 :: rest ∧ decodeInstr (wordOfBytes b0 b1 b2 b3) = .ok i := by
  unfold decodeBytes at h
  split at h
  · next b0 b1 b2 b3 tail =>
    split at h
    · next j hj =>
      obtain ⟨rfl, rfl⟩ := Prod.mk.inj (Except.ok.inj h)
      exact ⟨b0, b1, b2, b3, rfl, hj⟩
    · cases h
  · cases h

/-- Settles O11: a word and its four bytes determine each other, and so do an instruction and its word. -/
theorem decodeAndEncodeAgree : Obligations.DecodeAndEncodeAgree := by
  refine ⟨fun i rest => decodeBytes_bytesOfWord rest (decodeInstr_encode i), fun bs i rest h => ?_⟩
  obtain ⟨b0, b1, b2, b3, rfl, hi⟩ := decodeBytes_ok h
  rw [encodeBytes, encode_of_decodeInstr hi, bytesOfWord_wordOfBytes]
  rfl

/-- The table's mask keeps the primary opcode alone (30_encoding.md R66). -/
theorem and_tableMask (w : Word) : w &&& 0xFC000000#32 = w.extractLsb' 26 6 ++ 0#26 := by
  apply BitVec.eq_of_getLsbD_eq
  intro i hi
  rw [BitVec.getLsbD_and, BitVec.getLsbD_append]
  have : i ∈ List.range 32 := by simpa using hi
  fin_cases this <;> simp

/-- The mask's form of the opcode test. -/
theorem and_tableMask_eq_iff {w : Word} :
    w &&& 0xFC000000#32 = 0x3C000000#32 ↔ w.extractLsb' 26 6 = luiOpcode := by
  rw [and_tableMask, show (0x3C000000#32 : Word) = luiOpcode ++ 0#26 from rfl]
  exact BitVec.append_left_inj 0#26

/-- The range's form of the opcode test. -/
theorem op_eq_lui_iff_range {w : Word} :
    w.extractLsb' 26 6 = luiOpcode ↔ 0x3C000000 ≤ w.toNat ∧ w.toNat ≤ 0x3FFFFFFF := by
  rw [← BitVec.toNat_inj, BitVec.extractLsb'_toNat, show luiOpcode.toNat = 15 from rfl, Nat.shiftRight_eq_div_pow]
  have := w.isLt
  omega

/-- Settles O10: both tests of the word are the test of its primary opcode. -/
theorem luiOccupiesExactlyItsTableBlock : Obligations.LuiOccupiesExactlyItsTableBlock :=
  fun _ => ⟨exists_decodeInstr_iff.trans and_tableMask_eq_iff.symm, exists_decodeInstr_iff.trans op_eq_lui_iff_range⟩

/-- Settles O9, by running the decoder on the spec's words. -/
theorem sampleWordsDecodeAsTheSpecSays : Obligations.SampleWordsDecodeAsTheSpecSays := by
  unfold Obligations.SampleWordsDecodeAsTheSpecSays
  decide

/-- Settles O12, byte by byte and bit by bit. -/
theorem luiBytesHoldTheirFields : Obligations.LuiBytesHoldTheirFields := by
  intro rs rt imm16
  simp only [encodeBytes, bytesOfWord, List.cons.injEq, and_true]
  refine ⟨?_, ?_, ?_, ?_⟩
  all_goals
    apply BitVec.eq_of_getLsbD_eq
    intro i hi
    simp only [BitVec.getLsbD_extractLsb', BitVec.getLsbD_append, getLsbD_encode_lui]
    grind

/-- 30_encoding.md R70: the assembled word bit by bit is opcode, target and immediate in their places. -/
theorem assembleLui_eq (rt : RegIdx) (imm16 : Imm16) :
    assembleLui rt imm16 = 0x3C000000#32 ||| (rt.zeroExtend 32 <<< 16) ||| imm16.zeroExtend 32 := by
  apply BitVec.eq_of_getLsbD_eq
  intro i hi
  rw [assembleLui, getLsbD_encode_lui, luiOpcode]
  have : i ∈ List.range 32 := by simpa using hi
  fin_cases this <;> simp

/-- Settles O13: the assembled word is an encoded instruction, so it decodes to it. -/
theorem assembledLuiIsItsWord : Obligations.AssembledLuiIsItsWord :=
  fun rt imm16 => ⟨assembleLui_eq rt imm16, decodeInstr_encode (.lui 0#5 rt imm16)⟩

end Sys2Proof
end

section
/-! SUPPORT. What `LUI`, a register write and the advance of `pc` leave, read at every register (41_lui.md R90 and R92,
10_state.md R13 to R15). -/

namespace Sys2Proof.Machine

/-- What `LUI` leaves in every register, as a number (41_lui.md R92). -/
theorem readReg_lui_toNat (rt j : RegIdx) (imm16 : Imm16) (s : State) :
    (readReg j (writeReg rt (upperImmediate imm16) s)).toNat =
      if j = rt ∧ j ≠ 0#5 then imm16.toNat * 65536 else (readReg j s).toNat := by
  rw [readReg_after_writeReg]
  by_cases hj : j = rt
  · subst hj
    split <;> simp [upperImmediate_toNat, *]
  · simp [hj]

/-- A write leaves every other register as it was (10_state.md R14). -/
theorem readReg_writeReg_of_ne {i j : RegIdx} (h : j ≠ i) (v : Word) (s : State) :
    readReg j (writeReg i v s) = readReg j s := by
  rw [readReg_after_writeReg, if_neg fun hji => h hji.1]

/-- The low half of what `LUI` leaves in its target is zero, in register 0 too. -/
theorem readReg_lui_low_half (rt : RegIdx) (imm16 : Imm16) (s : State) :
    (readReg rt (writeReg rt (upperImmediate imm16) s)).extractLsb' 0 16 = 0#16 := by
  apply BitVec.eq_of_toNat_eq
  rw [BitVec.extractLsb'_toNat, readReg_lui_toNat]
  by_cases h : rt = 0#5
  · simp [h]
  · simp only [h, ne_eq, not_false_eq_true, and_self, if_true, Nat.shiftRight_zero, BitVec.toNat_zero]
    omega

/-- 41_lui.md R90: the upper half as the shifted immediate. -/
theorem upperImmediate_eq_shift (imm16 : Imm16) : upperImmediate imm16 = imm16.zeroExtend 32 <<< 16 := by
  apply BitVec.eq_of_toNat_eq
  have := imm16.isLt
  rw [upperImmediate_toNat, BitVec.toNat_shiftLeft, BitVec.toNat_setWidth, Nat.shiftLeft_eq]
  omega

/-- Settles O1: the write of `LUI` at its target, at the other registers and at every other field. -/
theorem luiCompletesAndWritesUpperHalf : Obligations.LuiCompletesAndWritesUpperHalf := by
  intro rs rt imm16 s
  refine ⟨_, exec_lui rs rt imm16 s, ?_, fun j hj => readReg_writeReg_of_ne hj _ s, writeReg_pc .., writeReg_halted ..,
    writeReg_faultKind .., writeReg_faultValue .., writeReg_faultAddr .., writeReg_cfg .., fun a => ?_⟩
  · rw [readReg_lui_toNat]
    by_cases h : rt = 0#5 <;> simp [h]
  · rw [writeReg_rom]

/-- Settles O2: `rs` is not looked at, and a second write of the same value changes nothing. -/
theorem luiCornerCases : Obligations.LuiCornerCases := by
  intro rs rs' rt imm16 s
  refine ⟨?_, rfl, _, exec_lui rs rt imm16 s, readReg_lui_low_half rt imm16 s, ?_⟩
  · rw [exec_lui, writeReg, if_pos rfl]
  · rw [exec_lui, writeReg_writeReg_same]

/-- Settles O41: the observation ports are `readReg` and `pc`. -/
theorem hostSeesAWrittenRegisterAtOnce : Obligations.HostSeesAWrittenRegisterAtOnce := by
  intro rs rt imm16 s
  refine ⟨_, exec_lui rs rt imm16 s, readReg_zero _, fun hrt => ?_, writeReg_pc ..⟩
  rw [obsReg, readReg_after_writeReg, if_pos ⟨rfl, hrt⟩, upperImmediate_eq_shift]

/-- What the write that clears register 0 afterwards does to every register (10_state.md R15). -/
theorem readReg_writeRegReclear (i j : RegIdx) (v : Word) (s : State) :
    readReg j (writeRegReclear i v s) = if j = i ∧ i ≠ 0#5 then v else readReg j s := by
  by_cases hj : j = 0#5
  · subst hj
    rw [readReg_zero, readReg_zero, if_neg (by rintro ⟨rfl, h⟩; exact h rfl)]
  · have h0 : (0 : Nat) ≠ j.toNat := fun h => hj (BitVec.eq_of_toNat_eq h.symm)
    rw [readReg_of_ne hj, readReg_of_ne hj]
    simp only [writeRegReclear, Vector.getElem_set, h0, if_false]
    by_cases e : i = j
    · subst e; simp [hj]
    · have : i.toNat ≠ j.toNat := fun h => e (BitVec.eq_of_toNat_eq h)
      simp [this, Ne.symm e]

/-- Where the cell of register 0 holds zero, clearing it again changes nothing. -/
theorem writeRegReclear_eq_writeReg {s : State} (h : s.regs[0] = 0#32) (i : RegIdx) (v : Word) :
    writeRegReclear i v s = writeReg i v s := by
  by_cases hi : i = 0#5
  · subst hi
    have hregs : (s.regs.set 0 v).set 0 0#32 = s.regs := by rw [Vector.set_set, ← h, Vector.set_getElem_self]
    rw [writeReg, if_pos rfl]
    exact congrArg (fun r => { s with regs := r }) hregs
  · have h0 : i.toNat ≠ 0 := fun e => hi (BitVec.eq_of_toNat_eq e)
    have hregs : (s.regs.set i.toNat v).set 0 0#32 = s.regs.set i.toNat v := by
      rw [Vector.set_comm _ _ h0, ← h, Vector.set_getElem_self]
    rw [writeReg, if_neg hi]
    exact congrArg (fun r => { s with regs := r }) hregs

/-- Settles O4: both writings give one reading, and one state where register 0's cell is zero. -/
theorem bothRegisterWritesAgree : Obligations.BothRegisterWritesAgree :=
  fun i v s => ⟨fun j => by rw [readReg_writeRegReclear, readReg_after_writeReg],
    fun h => writeRegReclear_eq_writeReg h i v⟩

/-- Settles O5: the sum of words is the sum of numbers modulo 2^32. -/
theorem pcAdvanceWrapsAndTouchesOnlyPc : Obligations.PcAdvanceWrapsAndTouchesOnlyPc := by
  intro s
  refine ⟨?_, rfl, fun h => ?_⟩
  · rw [advancePc_pc, BitVec.toNat_add]; rfl
  · rw [advancePc_pc, h]; rfl

end Sys2Proof.Machine
end

section
/-! SUPPORT. Legal device tables, and what a request inside a device is answered (20_memory.md R36 to R52). -/

namespace Sys2Proof

theorem Device.disjoint_iff {a b : Device} :
    a.disjoint b = true ↔ a.base.toNat + a.size ≤ b.base.toNat ∨ b.base.toNat + b.size ≤ a.base.toNat := by
  simp [Device.disjoint]

/-- The third check takes every two rows, the earlier one first. -/
theorem disjointTable_iff_pairwise {ds : List Device} :
    disjointTable ds = true ↔ ds.Pairwise fun a b => a.disjoint b = true := by
  induction ds with
  | nil => simp [disjointTable]
  | cons d ds ih => simp [disjointTable, ih]

/-- The third check as a statement about any two rows, in either order: disjointness is symmetric. -/
theorem disjointTable_iff {ds : List Device} :
    disjointTable ds = true ↔ ∀ (i j : Nat) (a b : Device), i ≠ j → ds[i]? = some a → ds[j]? = some b →
      a.base.toNat + a.size ≤ b.base.toNat ∨ b.base.toNat + b.size ≤ a.base.toNat := by
  rw [disjointTable_iff_pairwise, List.pairwise_iff_getElem]
  constructor
  · intro h i j a b hij ha hb
    obtain ⟨hi, rfl⟩ := List.getElem?_eq_some_iff.1 ha
    obtain ⟨hj, rfl⟩ := List.getElem?_eq_some_iff.1 hb
    rcases Nat.lt_or_gt_of_ne hij with hlt | hgt
    · exact Device.disjoint_iff.1 (h i j hi hj hlt)
    · exact (Device.disjoint_iff.1 (h j i hj hi hgt)).symm
  · intro h i j hi hj hlt
    exact Device.disjoint_iff.2 (h i j _ _ (Nat.ne_of_lt hlt) (List.getElem?_eq_getElem hi)
      (List.getElem?_eq_getElem hj))

/-- Settles O19: each of the three checks means its condition. -/
theorem legalTableCheckMeansItsConditions : Obligations.LegalTableCheckMeansItsConditions := by
  intro ds
  rw [← disjointTable_iff]
  simp [legalTable, Device.nonEmpty, Device.insideSpace, forall_and]

end Sys2Proof

namespace Sys2Proof.Machine

/-- On a legal table at most one device contains an address: two rows that both do would overlap. -/
theorem contains_unique {ds : List Device} (h : legalTable ds = true) {a b : Device} {addr : Word} (ha : a ∈ ds)
    (hb : b ∈ ds) (hca : contains a addr = true) (hcb : contains b addr = true) : a = b := by
  obtain ⟨i, hi⟩ := List.mem_iff_getElem?.1 ha
  obtain ⟨j, hj⟩ := List.mem_iff_getElem?.1 hb
  by_cases hij : i = j
  · subst hij
    exact Option.some.inj (hi.symm.trans hj)
  · have hdisj := ((legalTableCheckMeansItsConditions ds).1 h).2 i j a b hij hi hj
    have := contains_iff.1 hca
    have := contains_iff.1 hcb
    omega

/-- On a legal table a device of it that contains the address is the routed one (20_memory.md R38). -/
theorem route_of_contains {ds : List Device} (h : legalTable ds = true) {d : Device} {addr : Word} (hd : d ∈ ds)
    (hc : contains d addr = true) : route ds addr = some d := by
  cases hr : route ds addr with
  | none => exact absurd (route_eq_none.1 hr d hd) (by simp [hc])
  | some d' =>
    obtain ⟨hd', hc'⟩ := route_eq_some hr
    rw [contains_unique h hd' hd hc' hc]

/-- A routed request whose four bytes lie in the device is answered them, the lowest address first. -/
theorem load32_of_route_le {ds : List Device} {rom : Memory} {addr : Word} {d : Device} (hr : route ds addr = some d)
    (hs : addr.toNat - d.base.toNat + 4 ≤ d.size) :
    load32 ds rom addr = .ok (wordOfBytes (readByte rom addr.toNat) (readByte rom (addr.toNat + 1))
      (readByte rom (addr.toNat + 2)) (readByte rom (addr.toNat + 3))) := by
  rcases load32_cases ds rom addr with ⟨hr', _⟩ | ⟨_, _, _, e⟩ | ⟨d', hr', hs', _⟩
  · cases hr.symm.trans hr'
  · exact e
  · obtain rfl := Option.some.inj (hr.symm.trans hr')
    omega

/-- A routed request that runs past the device is answered OutOfBounds with the absolute address. -/
theorem load32_of_route_lt {ds : List Device} {rom : Memory} {addr : Word} {d : Device} (hr : route ds addr = some d)
    (hs : d.size < addr.toNat - d.base.toNat + 4) : load32 ds rom addr = .error (.outOfBounds addr) := by
  rcases load32_cases ds rom addr with ⟨hr', _⟩ | ⟨d', hr', hs', _⟩ | ⟨_, _, _, e⟩
  · cases hr.symm.trans hr'
  · obtain rfl := Option.some.inj (hr.symm.trans hr')
    omega
  · exact e

/-- Settles O17: on a legal table the containing device is routed, and its size decides. -/
theorem loadInsideADeviceAnswersBytesOrOutOfBounds : Obligations.LoadInsideADeviceAnswersBytesOrOutOfBounds :=
  fun _ _ _ _ htab hd hc =>
    ⟨load32_of_route_le (route_of_contains htab hd hc), load32_of_route_lt (route_of_contains htab hd hc)⟩

/-- On a legal table routing does not depend on the order of the rows. -/
theorem route_perm {ds ds' : List Device} (h : legalTable ds = true) (hp : ds.Perm ds') (addr : Word) :
    route ds addr = route ds' addr := by
  cases hr : route ds' addr with
  | none => exact route_eq_none.2 fun d hd => route_eq_none.1 hr d (hp.mem_iff.1 hd)
  | some d =>
    obtain ⟨hd, hc⟩ := route_eq_some hr
    exact route_of_contains h (hp.mem_iff.2 hd) hc

/-- Settles O18: `Load32` sees the table through `route` alone. -/
theorem routingOrderIsUnobservable : Obligations.RoutingOrderIsUnobservable := by
  intro ds ds' rom addr htab hp
  rw [load32, load32, route_perm htab hp]

/-- Settles O21: the widths are told apart by `n` alone. -/
theorem onlyWordLoadsExist : Obligations.OnlyWordLoadsExist := by
  intro s addr n v
  refine ⟨fun w => ?_, fun hn => if_neg hn, rfl⟩
  rw [memRead, if_pos rfl]
  cases load32 s.cfg.devices s.rom addr <;> simp

section devicePorts
variable {rom : Memory} {d : Device} {addr : Word}

/-- The ports of the selected device (20_memory.md R52). -/
theorem devicePorts_of_contains (h : contains d addr = true) :
    devicePorts rom d addr =
      { sel := true, off := some (addr - d.base), rdata := devLoad32 rom d (deviceOffset d addr),
        oob := (devLoad32 rom d (deviceOffset d addr)).isNone } := if_pos h

/-- A device is selected exactly when its range contains the address. -/
theorem devicePorts_sel : (devicePorts rom d addr).sel = contains d addr := by
  unfold devicePorts
  split <;> simp [*]
end devicePorts

/-- The response to an address no device contains. -/
theorem icResponse_of_route_none {ds : List Device} {addr : Word} (rom : Memory) (h : route ds addr = none) :
    icResponse ds rom addr = { data := none, fault := 1#2 } := by
  simp [icResponse, load32, h]

/-- The response to a routed address is the device's answer, and code 3 where the device has none. -/
theorem icResponse_of_route_some {ds : List Device} {addr : Word} {d : Device} (rom : Memory)
    (h : route ds addr = some d) :
    icResponse ds rom addr =
      { data := devLoad32 rom d (deviceOffset d addr)
        fault := if (devLoad32 rom d (deviceOffset d addr)).isNone then 3#2 else 0#2 } := by
  cases hl : devLoad32 rom d (deviceOffset d addr) <;> simp [icResponse, load32, h, hl]

/-- Settles O22: the selected device is the one that contains the address, and it is the routed one. -/
theorem atMostOneDeviceAnswersARequest : Obligations.AtMostOneDeviceAnswersARequest := by
  intro ds rom addr htab
  simp only [devicePorts_sel]
  refine ⟨fun d hd hc => ?_, fun hnone => icResponse_of_route_none rom (route_eq_none.2 hnone)⟩
  rw [devicePorts_of_contains hc, icResponse_of_route_some rom (route_of_contains htab hd hc)]
  exact ⟨fun d' hd' hc' => contains_unique htab hd' hd hc' hc, rfl, rfl, rfl⟩

/-- The response carries a word with code 0 exactly when `Load32` answers that word. -/
theorem icResponse_eq_ok_iff {ds : List Device} {rom : Memory} {addr w : Word} :
    icResponse ds rom addr = { data := some w, fault := 0#2 } ↔ load32 ds rom addr = .ok w := by
  unfold icResponse
  split <;> simp_all

section icRequest
variable {inp : HostInputs} {s : State}

/-- A step that finds `pc` aligned requests `pc` (40_fetch_decode_execute.md R81). -/
theorem icRequest_of_step (h : takesStep inp s = true) (hpc : s.pc.extractLsb' 0 2 = 0#2) :
    icRequest inp s = some s.pc := if_pos ⟨h, hpc⟩

/-- A misaligned `pc` is not requested (60_exceptions.md R102). -/
theorem icRequest_of_misaligned (hpc : s.pc.extractLsb' 0 2 ≠ 0#2) : icRequest inp s = none :=
  if_neg fun h => hpc h.2

/-- Without a step there is no request. -/
theorem icRequest_of_no_step (h : takesStep inp s = false) : icRequest inp s = none :=
  if_neg fun hs => by simp [h] at hs
end icRequest

/-- In a step the fetch is the response to the core's own request. -/
theorem fetch_ok_iff_response {inp : HostInputs} {s : State} {w : Word} (h : takesStep inp s = true) :
    fetch s = .ok w ↔ ∃ a, icRequest inp s = some a ∧
      icResponse s.cfg.devices s.rom a = { data := some w, fault := 0#2 } := by
  by_cases hpc : s.pc.extractLsb' 0 2 = 0#2
  · simp [fetch_ok, icRequest_of_step h hpc, icResponse_eq_ok_iff, hpc]
  · simp [fetch_ok, icRequest_of_misaligned hpc, hpc]

/-- Settles O23: whether a step is taken and whether `pc` is aligned decide the request. -/
theorem coreRequestsAnAlignedPcOnly : Obligations.CoreRequestsAnAlignedPcOnly := by
  intro inp s
  refine ⟨fun hreset hen hrun => ?_, icRequest_of_misaligned, fun hno => icRequest_of_no_step ?_⟩
  · have hstep : takesStep inp s = true := by simp [takesStep, hreset, hen, hrun]
    exact ⟨icRequest_of_step hstep, fun w => fetch_ok_iff_response hstep⟩
  · rcases hno with h | h | h <;> simp [takesStep, h]

end Sys2Proof.Machine
end

section
/-! SUPPORT. What a step of a running block answers for each fetch, and the state each fatal condition leaves
(40_fetch_decode_execute.md R80 to R89, 60_exceptions.md R100 to R110). -/

namespace Sys2Proof.Machine

/-! ### A fetch that answers a word -/

/-- A running block that fetches an instruction's word runs it with `pc` advanced. -/
theorem step_of_fetches {s : State} {w : Word} {i : Instr} (hrun : s.halted = false) (hf : Fetches s w)
    (hi : decodeInstr w = .ok i) : step s = exec i (advancePc s) := by
  rw [step_of_running hrun, coreStep, fetch_ok.2 hf]
  simp only [hi]

/-- A running block that fetches a word with another opcode raises UnhandledInstruction, `pc` advanced. -/
theorem step_of_fetches_other {s : State} {w : Word} (hrun : s.halted = false) (hf : Fetches s w)
    (hw : w.extractLsb' 26 6 ≠ luiOpcode) : step s = raise (.unhandledInstruction w s.pc) (advancePc s) := by
  rw [step_of_running hrun, coreStep, fetch_ok.2 hf]
  simp only [decodeInstr_of_not_lui hw]

/-- A running block that fetches a `LUI` word writes the upper immediate to the word's target. -/
theorem step_of_fetches_lui {s : State} {w : Word} (hrun : s.halted = false) (hf : Fetches s w)
    (hw : w.extractLsb' 26 6 = luiOpcode) :
    step s = .next (writeReg (w.extractLsb' 16 5) (upperImmediate (w.extractLsb' 0 16)) (advancePc s)) := by
  rw [step_of_fetches hrun hf (decodeInstr_of_lui hw), exec_lui]

/-- An aligned `pc` whose four bytes lie in a device of the configuration is fetched. -/
theorem fetches_of_contains {s : State} {d : Device} (hpc : s.pc.extractLsb' 0 2 = 0#2) (hd : d ∈ s.cfg.devices)
    (hc : contains d s.pc = true) (hs : s.pc.toNat - d.base.toNat + 4 ≤ d.size) :
    Fetches s (wordOfBytes (readByte s.rom s.pc.toNat) (readByte s.rom (s.pc.toNat + 1))
      (readByte s.rom (s.pc.toNat + 2)) (readByte s.rom (s.pc.toNat + 3))) :=
  ⟨hpc, load32_of_route_le (route_cfg_devices hd hc) hs⟩

/-- Settles O14, by the decoder's rejection and the step that meets it. -/
theorem otherOpcodesAreUnhandled : Obligations.OtherOpcodesAreUnhandled :=
  fun _ hw => ⟨decodeInstr_of_not_lui hw, fun _ hrun hf => step_of_fetches_other hrun hf hw⟩

/-- Settles O25: the two sides of the opcode test. -/
theorem dispatchLooksAtThePrimaryOpcodeOnly : Obligations.DispatchLooksAtThePrimaryOpcodeOnly := by
  intro s w hrun hf
  refine ⟨fun hw => ?_, step_of_fetches_other hrun hf⟩
  have hi := decodeInstr_of_lui hw
  exact ⟨_, _, _, hi, step_of_fetches hrun hf hi⟩

/-- Settles O24: the fetched word is the word of the four bytes, so it decodes as they do. -/
theorem stepRunsTheDecodedInstruction : Obligations.StepRunsTheDecodedInstruction := by
  rintro s i hrun hpc ⟨d, hd, hc, hs⟩ hbytes
  obtain ⟨b0, b1, b2, b3, hb, hi⟩ := decodeBytes_ok hbytes
  simp only [List.cons.injEq, and_true] at hb
  obtain ⟨rfl, rfl, rfl, rfl⟩ := hb
  exact step_of_fetches hrun (fetches_of_contains hpc hd hc hs) hi

/-- Settles O26: the completed step is a register write after the advance. -/
theorem stepOfALuiWordCompletes : Obligations.StepOfALuiWordCompletes := by
  intro s w hrun hf hw
  refine ⟨_, step_of_fetches_lui hrun hf hw, writeReg_pc .., fun j => ?_, ?_, writeReg_faultKind ..,
    writeReg_faultValue .., writeReg_faultAddr .., writeReg_rom .., writeReg_cfg ..⟩
  · rw [readReg_lui_toNat, readReg_advancePc, BitVec.extractLsb'_toNat, Nat.shiftRight_zero]
  · rw [writeReg_halted, advancePc_halted, hrun]

/-! ### The conditions of the three fetch faults -/

section fetchFaults
variable {s : State}

/-- 60_exceptions.md R102, in the fetch. -/
theorem fetch_misaligned_iff : fetch s = .error (.misalignedFetch s.pc) ↔ s.pc.extractLsb' 0 2 ≠ 0#2 := by
  refine ⟨fun h => ?_, fun h => if_neg h⟩
  rcases fetch_error h with ⟨hpc, _⟩ | ⟨_, _, e⟩ | ⟨_, _, e⟩
  · exact hpc
  · cases e
  · cases e

/-- 60_exceptions.md R101, in the fetch. -/
theorem fetch_unmapped_iff : fetch s = .error (.unmappedAddress s.pc) ↔
    s.pc.extractLsb' 0 2 = 0#2 ∧ ∀ d ∈ s.cfg.devices, contains d s.pc = false := by
  refine ⟨fun h => ?_, fun ⟨hpc, hun⟩ => fetch_of_load32_error hpc (load32_unmapped_iff.2 hun)⟩
  rcases fetch_error h with ⟨_, e⟩ | ⟨hpc, hun, _⟩ | ⟨_, _, e⟩
  · cases e
  · exact ⟨hpc, hun⟩
  · cases e

/-- 60_exceptions.md R103, in the fetch. -/
theorem fetch_outOfBounds_iff : fetch s = .error (.outOfBounds s.pc) ↔
    s.pc.extractLsb' 0 2 = 0#2 ∧
      ∃ d ∈ s.cfg.devices, contains d s.pc = true ∧ d.size < s.pc.toNat - d.base.toNat + 4 := by
  refine ⟨fun h => ?_, fun ⟨hpc, d, hd, hc, hs⟩ =>
    fetch_of_load32_error hpc (load32_of_route_lt (route_cfg_devices hd hc) hs)⟩
  rcases fetch_error h with ⟨_, e⟩ | ⟨_, _, e⟩ | ⟨hpc, hout, _⟩
  · cases e
  · cases e
  · exact ⟨hpc, hout⟩
end fetchFaults

/-! ### What each fatal condition leaves -/

/-- Settles O30. -/
theorem misalignedPcFaults : Obligations.MisalignedPcFaults :=
  fun _ hrun hpc => step_of_fetch_error hrun (fetch_misaligned_iff.2 hpc)

/-- Settles O31. -/
theorem unmappedPcFaults : Obligations.UnmappedPcFaults :=
  fun _ hrun hpc hun => step_of_unclaimed_pc hrun hpc hun

/-- Settles O32. -/
theorem fetchPastTheEndOfADeviceFaults : Obligations.FetchPastTheEndOfADeviceFaults :=
  fun _ hrun hpc hout => step_of_fetch_error hrun (fetch_outOfBounds_iff.2 ⟨hpc, hout⟩)

/-- Settles O33. -/
theorem unhandledWordFaultsAfterTheAdvance : Obligations.UnhandledWordFaultsAfterTheAdvance :=
  fun _ _ hrun hf hw => step_of_fetches_other hrun hf hw

/-- Settles O34: the conditions are those of the fetch's answers, and the step's outcome follows the fetch's. -/
theorem eachOutcomeHasItsExactCondition : Obligations.EachOutcomeHasItsExactCondition := by
  intro s hrun
  rw [step_of_running hrun, ← fetch_misaligned_iff, ← fetch_unmapped_iff, ← fetch_outOfBounds_iff]
  simp only [Fetches, ← fetch_ok]
  rcases coreStep_cases s with ⟨c, hf, e⟩ | ⟨w, hf, hw, e⟩ | ⟨w, hf, hw, e⟩
  · rcases fetch_error hf with ⟨_, rfl⟩ | ⟨_, _, rfl⟩ | ⟨_, _, rfl⟩ <;> simp [e, hf, raise]
  · simpa [e, hf, raise, luiOpcode] using hw
  · simpa [e, hf, luiOpcode] using hw

/-! ### Inversion: what a step that answered did -/

/-- A step that faults left a halted state: of the state it found where the fetch failed, and of the advanced one where
the word was no instruction. -/
theorem coreStep_fault {s : State} {f : Fault} (h : coreStep s = .fault f) :
    (∃ c, fetch s = .error c ∧ faultState f = haltWith c s) ∨
    (∃ w, Fetches s w ∧ w.extractLsb' 26 6 ≠ luiOpcode ∧
      faultState f = haltWith (.unhandledInstruction w s.pc) (advancePc s)) := by
  rcases coreStep_cases s with ⟨c, hf, e⟩ | ⟨w, hf, hw, e⟩ | ⟨w, _, _, e⟩ <;> rw [e] at h
  · exact .inl ⟨c, hf, faultState_of_raise h⟩
  · exact .inr ⟨w, fetch_ok.1 hf, hw, faultState_of_raise h⟩
  · cases h

/-- A fetch never fails with UnhandledInstruction: the core raises that one at dispatch. -/
theorem conditionKind_of_fetch_error {s : State} {c : FatalCondition} (h : fetch s = .error c) :
    conditionKind c ≠ .unhandledInstruction := by
  rcases fetch_error h with ⟨_, rfl⟩ | ⟨_, _, rfl⟩ | ⟨_, _, rfl⟩ <;> simp [conditionKind]

/-- Settles O28, by the inversion of a step on each side. -/
theorem stepTouchesNothingElse : Obligations.StepTouchesNothingElse := by
  intro s hrun
  rw [step_of_running hrun]
  constructor
  · intro t ht
    obtain ⟨w, _, _, rfl⟩ := coreStep_next ht
    refine ⟨writeReg_pc .., ⟨w.extractLsb' 16 5, fun i hi => ?_⟩, ?_, writeReg_faultKind .., writeReg_faultValue ..,
      writeReg_faultAddr .., writeReg_rom .., writeReg_cfg ..⟩
    · rw [readReg_writeReg_of_ne hi, readReg_advancePc]
    · rw [writeReg_halted, advancePc_halted, hrun]
  · intro f hf
    rcases coreStep_fault hf with ⟨c, hc, e⟩ | ⟨w, _, _, e⟩ <;> rw [e]
    · have := conditionKind_of_fetch_error hc
      simp [this]
    · simp [conditionKind]

/-- The codes tell the kinds apart (60_exceptions.md R100). -/
theorem faultCode_injective : Function.Injective faultCode := by
  intro a b
  cases a <;> cases b <;> decide

/-- Settles O36: the ports show the record that `raise` wrote. -/
theorem faultCodesAreDistinct : Obligations.FaultCodesAreDistinct := by
  refine ⟨rfl, rfl, rfl, rfl, rfl, rfl, faultCode_injective, fun c s f h => ?_⟩
  rw [faultState_of_raise h]
  exact ⟨rfl, rfl, rfl, rfl⟩

end Sys2Proof.Machine
end

section
/-! SUPPORT. The state that construction and reset answer, the host's holding of the block, and the loader
(70_reset_and_hazards.md R130 to R134, 60_exceptions.md R111 and R114). -/

namespace Sys2Proof.Machine

/-! ### Reset -/

/-- Every register after reset: register 29 holds `SP_INIT`, the others zero (10_state.md R23). -/
theorem readReg_resetWith (cfg : Cfg) (rom : Memory) (i : RegIdx) :
    readReg i (State.resetWith cfg rom) = if i = 29#5 then cfg.spInit else 0#32 := by
  by_cases h0 : i = 0#5
  · subst h0; rfl
  · rw [readReg_of_ne h0]
    have h29 : (29 = i.toNat) ↔ i = 29#5 := by rw [← BitVec.toNat_inj]; exact eq_comm
    simp only [resetWith_regs, Vector.getElem_set, h29, Vector.getElem_replicate]

/-- The reset state has a clear fault record (10_state.md R19 and R23). -/
theorem recordClear_resetWith (cfg : Cfg) (rom : Memory) : recordClear (State.resetWith cfg rom) := ⟨rfl, rfl, rfl⟩

/-- A cycle of reset answers the reset state of the block's own configuration and ROM. -/
theorem cycle_of_reset {inp : HostInputs} (h : inp.reset = true) (s : State) :
    cycle inp s = .next (State.resetWith s.cfg s.rom) := if_pos h

/-- Settles O38: the reset state field by field. -/
theorem resetInputRestoresTheResetValues : Obligations.ResetInputRestoresTheResetValues :=
  fun s _ => ⟨_, cycle_of_reset rfl s, rfl, readReg_resetWith s.cfg s.rom, rfl, rfl, rfl, rfl, rfl, rfl⟩

/-! ### Holding -/

/-- Without reset a cycle of a halted or disabled block answers the state it found. -/
theorem cycle_of_hold {inp : HostInputs} {s : State} (hreset : inp.reset = false)
    (h : s.halted = true ∨ inp.runEn = false) : cycle inp s = .next s := by
  rcases h with h | h <;> simp [cycle, hreset, h]

/-- Settles O40: a disabled block holds, and `step` is the enabled cycle. -/
theorem withholdingRunEnChangesNothing : Obligations.WithholdingRunEnChangesNothing :=
  fun _ => ⟨cycle_of_hold rfl (.inr rfl), rfl⟩

/-- A halted block holds its state through any inputs without reset. -/
theorem runHost_of_halted {s : State} (h : s.halted = true) (inps : List HostInputs)
    (hin : ∀ inp ∈ inps, inp.reset = false) : runHost inps s = s := by
  induction inps with
  | nil => rfl
  | cons inp inps ih =>
    have hhold : cycleState s inp = s := by rw [cycleState, cycle_of_hold (hin inp (by simp)) (.inl h)]; rfl
    rw [runHost_cons, hhold]
    exact ih fun i hi => hin i (by simp [hi])

/-- Settles O35: holding by induction on the inputs, release by the reset state. -/
theorem haltedIsAbsorbingUntilReset : Obligations.HaltedIsAbsorbingUntilReset :=
  fun _ inps _ h => ⟨runHost_of_halted h inps, step_of_halted h, rfl⟩

/-! ### Construction -/

section construct
variable {cfg : Cfg} {image : List Byte}

/-- The first check of construction (70_reset_and_hazards.md R133). -/
theorem construct_of_wrong_size (h : image.length ≠ cfg.biosSize) :
    construct cfg image = .refused (.corruptImage image.length) := if_pos h

/-- The second check of construction (70_reset_and_hazards.md R134). -/
theorem construct_of_illegal_table (hlen : image.length = cfg.biosSize) (htab : legalTable cfg.devices = false) :
    construct cfg image = .refused .badDeviceTable := by
  simp [construct, hlen, htab]

/-- A construction that passes both checks answers the reset state with the image in the ROM. -/
theorem construct_of_legal (hlen : image.length = cfg.biosSize) (htab : legalTable cfg.devices = true) :
    construct cfg image = .next (State.resetWith cfg (memoryOfImage cfg.biosBase.toNat image)) := by
  simp [construct, hlen, htab]

/-- A legal configuration: its one device is not empty and ends inside the 4 GiB space (20_memory.md R36). -/
theorem legalTable_devices_iff :
    legalTable cfg.devices = true ↔ 1 ≤ cfg.biosSize ∧ cfg.biosBase.toNat + cfg.biosSize ≤ 2 ^ 32 := by
  simp [legalTable, Cfg.devices, Device.nonEmpty, Device.insideSpace, disjointTable]

/-- Byte `k` of the image reads at `base + k`, given as the list's optional element. -/
theorem readByte_memoryOfImage_of_getElem? (base : Nat) {k : Nat} {b : Byte} (h : image[k]? = some b) :
    readByte (memoryOfImage base image) (base + k) = b := by
  obtain ⟨hk, rfl⟩ := List.getElem?_eq_some_iff.1 h
  exact readByte_memoryOfImage base image k hk

/-- Nothing of an image of unlisted bytes is listed. -/
theorem memoryOfImage_replicate_unlisted (base n : Nat) :
    memoryOfImage base (List.replicate n Config.unlistedByte) = [] := by
  induction n generalizing base with
  | zero => rfl
  | succ n ih => rw [List.replicate_succ, memoryOfImage, if_pos rfl, ih]

/-- A legal configuration with an image of unlisted bytes is its reset state with an empty ROM list. -/
theorem construct_replicate_unlisted (htab : legalTable cfg.devices = true) :
    construct cfg (List.replicate cfg.biosSize Config.unlistedByte) = .next (State.resetWith cfg []) := by
  rw [construct_of_legal List.length_replicate htab, memoryOfImage_replicate_unlisted]
end construct

/-- Settles O37: the two checks in order, then the reset state field by field. -/
theorem constructionChecksThenLoadsTheImage : Obligations.ConstructionChecksThenLoadsTheImage := by
  intro cfg image
  refine ⟨fun hlen => ?_, legalTable_devices_iff, construct_of_illegal_table, fun hlen htab => ?_⟩
  · rw [construct_of_wrong_size hlen]
    exact ⟨rfl, rfl⟩
  · exact ⟨_, construct_of_legal hlen htab, rfl, readReg_resetWith cfg _, rfl, recordClear_resetWith cfg _, rfl,
      fun _ _ => readByte_memoryOfImage_of_getElem? _⟩

/-- The runner's configuration is legal (log 10). -/
theorem legalTable_runner : legalTable Config.runner.devices = true := by decide

/-- Settles O39: the runner's clause is the general one at a legal configuration. -/
theorem modelResetIsAConstructedMachine : Obligations.ModelResetIsAConstructedMachine :=
  ⟨⟨rfl, readReg_resetWith Config.runner [], rfl, recordClear_resetWith _ _⟩,
    construct_replicate_unlisted legalTable_runner, fun _ => construct_replicate_unlisted⟩

/-! ### The loader -/

/-- The bytes of a placed word read back at `pc`, so a fetchable `pc` fetches that word. -/
theorem placeWordAtPc_fetches {s : State} {d : Device} (w : Word) (hwf : Memory.wf s.rom = true)
    (hpc : s.pc.extractLsb' 0 2 = 0#2) (hd : d ∈ s.cfg.devices) (hc : contains d s.pc = true)
    (hs : s.pc.toNat - d.base.toNat + 4 ≤ d.size) : Fetches (placeWordAtPc s w) w := by
  have hf : Fetches (placeWordAtPc s w) _ := fetches_of_contains hpc hd hc hs
  simpa [readByte_setBytes hwf, bytesOfWord, wordOfBytes_bytesOfWord] using hf

/-- The 32 table bits of a word are the word. -/
theorem ofNat_toNat_mod (w : Word) : BitVec.ofNat 32 (w.toNat % 2 ^ 32) = w := by
  rw [Nat.mod_eq_of_lt w.isLt, BitVec.ofNat_toNat, BitVec.setWidth_eq]

/-- `withFetchWord` on a word's 32 bits places that word. -/
theorem withFetchWord_toNat (s : State) (w : Word) : s.withFetchWord 32 w.toNat = placeWordAtPc s w := by
  rw [State.withFetchWord, ofNat_toNat_mod]

/-- The table decoder reads from a word's 32 bits what the decoder reads from the word. -/
theorem decodeTableWord_toNat {w : Word} {i : Instr} (h : decodeInstr w = .ok i) :
    decodeTableWord 32 w.toNat = some i := by
  have hbytes := decodeBytes_bytesOfWord [] h
  rw [List.append_nil] at hbytes
  rw [decodeTableWord, if_neg (Nat.lt_irrefl 32), ofNat_toNat_mod, hbytes]

/-- Settles O42: the placed word is fetched, and the step runs what it decodes to. -/
theorem placedWordIsRunNext : Obligations.PlacedWordIsRunNext := by
  rintro s w i hwf hrun hpc ⟨d, hd, hc, hs⟩ hi
  rw [withFetchWord_toNat]
  exact ⟨step_of_fetches hrun (placeWordAtPc_fetches w hwf hpc hd hc hs) hi, decodeTableWord_toNat hi⟩

end Sys2Proof.Machine
end

section
/-! SUPPORT. What every cycle keeps, and so what holds at every point of every run of the block (10_state.md R12, R19
to R21, 60_exceptions.md R110). -/

namespace Sys2Proof.Machine

/-! ### The ROM and the parameters -/

@[simp] theorem cycleState_rom (s : State) (inp : HostInputs) : (cycleState s inp).rom = s.rom := by
  rcases cycleState_cases s inp with e | e | ⟨_, _, _, e⟩ | ⟨_, _, _, _, e⟩ | ⟨_, _, _, _, e⟩ <;> simp [e]

@[simp] theorem cycleState_cfg (s : State) (inp : HostInputs) : (cycleState s inp).cfg = s.cfg := by
  rcases cycleState_cases s inp with e | e | ⟨_, _, _, e⟩ | ⟨_, _, _, _, e⟩ | ⟨_, _, _, _, e⟩ <;> simp [e]

/-- Settles O51, over the five things a cycle can leave. -/
theorem everyCycleKeepsRomAndParameters : Obligations.EveryCycleKeepsRomAndParameters :=
  fun s inp => ⟨cycleState_rom s inp, cycleState_cfg s inp⟩

@[simp] theorem runHost_rom (inps : List HostInputs) (s : State) : (runHost inps s).rom = s.rom :=
  runHost_induction (P := fun t => t.rom = s.rom) (fun t inp h => (cycleState_rom t inp).trans h) inps rfl

@[simp] theorem runHost_cfg (inps : List HostInputs) (s : State) : (runHost inps s).cfg = s.cfg :=
  runHost_induction (P := fun t => t.cfg = s.cfg) (fun t inp h => (cycleState_cfg t inp).trans h) inps rfl

/-- A load of four bytes of an image inside a legal configuration answers them, at any alignment (20_memory.md R40 and
R43). -/
theorem load32_memoryOfImage {cfg : Cfg} {image : List Byte} (hlen : image.length = cfg.biosSize)
    (htab : legalTable cfg.devices = true) {k : Nat} {b0 b1 b2 b3 : Byte} (h0 : image[k]? = some b0)
    (h1 : image[k + 1]? = some b1) (h2 : image[k + 2]? = some b2) (h3 : image[k + 3]? = some b3) :
    load32 cfg.devices (memoryOfImage cfg.biosBase.toNat image) (cfg.biosBase + BitVec.ofNat 32 k) =
      .ok (wordOfBytes b0 b1 b2 b3) := by
  obtain ⟨hk3, _⟩ := List.getElem?_eq_some_iff.1 h3
  obtain ⟨_, hend⟩ := legalTable_devices_iff.1 htab
  have haddr : (cfg.biosBase + BitVec.ofNat 32 k).toNat = cfg.biosBase.toNat + k := by
    rw [BitVec.toNat_add, BitVec.toNat_ofNat]; omega
  have hc : contains { base := cfg.biosBase, size := cfg.biosSize, kind := .rom }
      (cfg.biosBase + BitVec.ofNat 32 k) = true := contains_iff.2 (by simp only [haddr]; omega)
  rw [load32_of_route_le (route_cfg_devices (List.mem_singleton.2 rfl) hc) (by simp only [haddr]; omega), haddr,
    Nat.add_assoc, Nat.add_assoc, Nat.add_assoc, readByte_memoryOfImage_of_getElem? _ h0,
    readByte_memoryOfImage_of_getElem? _ h1, readByte_memoryOfImage_of_getElem? _ h2,
    readByte_memoryOfImage_of_getElem? _ h3]

/-- Settles O46: the ROM stays the constructed one, whose bytes are the image's. -/
theorem romHoldsTheImageForEver : Obligations.RomHoldsTheImageForEver := by
  intro cfg image s inps hs
  obtain ⟨hlen, htab, rfl⟩ := construct_next hs
  rw [runHost_rom, resetWith_rom]
  exact ⟨fun k b => readByte_memoryOfImage_of_getElem? _, fun k b0 b1 b2 b3 => load32_memoryOfImage hlen htab⟩

/-! ### The invariant of the block -/

/-- A reset state meets the invariant when its ROM and table do. -/
theorem blockInv_resetWith {cfg : Cfg} {rom : Memory} (hwf : Memory.wf rom = true)
    (hin : memoryWithin rom cfg.biosBase.toNat (cfg.biosBase.toNat + cfg.biosSize) = true)
    (htab : legalTable cfg.devices = true) : BlockInv (State.resetWith cfg rom) :=
  ⟨hwf, hin, htab, rfl, fun _ => recordClear_resetWith cfg rom, fun h => Bool.noConfusion h⟩

section blockInv
variable {s : State}

/-- The advance keeps the invariant of a running block. -/
theorem BlockInv.advancePc (h : BlockInv s) (hrun : s.halted = false) : BlockInv (advancePc s) := by
  obtain ⟨hwf, hin, htab, hreg, hclear, _⟩ := h
  exact ⟨hwf, hin, htab, hreg, hclear, fun hh => Bool.noConfusion (hrun.symm.trans hh)⟩

/-- A register write keeps the invariant of a running block: it never reaches the cell of register 0. -/
theorem BlockInv.writeReg (h : BlockInv s) (hrun : s.halted = false) (i : RegIdx) (v : Word) :
    BlockInv (writeReg i v s) := by
  obtain ⟨hwf, hin, htab, hreg, hclear, _⟩ := h
  have hrun' : (Machine.writeReg i v s).halted = false := (writeReg_halted i v s).trans hrun
  unfold BlockInv recordClear
  simp only [writeReg_rom, writeReg_cfg, writeReg_regs_zero, writeReg_faultKind, writeReg_faultValue,
    writeReg_faultAddr]
  exact ⟨hwf, hin, htab, hreg, fun _ => hclear hrun, fun hh => Bool.noConfusion (hrun'.symm.trans hh)⟩

/-- Halting keeps the invariant when the record it writes is true. -/
theorem BlockInv.haltWith {c : FatalCondition} (h : BlockInv s) (hrec : recordTrue (haltWith c s)) :
    BlockInv (haltWith c s) := by
  obtain ⟨hwf, hin, htab, hreg, _, _⟩ := h
  exact ⟨hwf, hin, htab, hreg, fun hh => Bool.noConfusion hh, fun _ => hrec⟩

/-- The record of a failed fetch is true: the condition it names holds at `pc` (60_exceptions.md R101 to R103). -/
theorem recordTrue_of_fetch_error {c : FatalCondition} (h : fetch s = .error c) : recordTrue (haltWith c s) := by
  rcases fetch_error h with ⟨hpc, rfl⟩ | ⟨hpc, hun, rfl⟩ | ⟨hpc, hout, rfl⟩
  · exact ⟨hpc, rfl, rfl⟩
  · exact ⟨hpc, hun, rfl, rfl⟩
  · exact ⟨hpc, hout, rfl, rfl⟩

/-- The record of a rejected word is true: the word lies at the recorded address, 4 below `pc` (60_exceptions.md R104
and R110). -/
theorem recordTrue_of_rejected {w : Word} (hf : Fetches s w) (hw : w.extractLsb' 26 6 ≠ luiOpcode) :
    recordTrue (haltWith (.unhandledInstruction w s.pc) (advancePc s)) := by
  obtain ⟨hpc, hload⟩ := hf
  exact ⟨hpc, hload, hw, rfl⟩

/-- Every cycle keeps the invariant of the block. -/
theorem BlockInv.cycleState (h : BlockInv s) (inp : HostInputs) : BlockInv (cycleState s inp) := by
  rcases cycleState_cases s inp with e | e | ⟨_, c, hf, e⟩ | ⟨hrun, w, hf, hw, e⟩ | ⟨hrun, w, _, _, e⟩ <;> rw [e]
  · obtain ⟨hwf, hin, htab, _⟩ := h
    exact blockInv_resetWith hwf hin htab
  · exact h
  · exact h.haltWith (recordTrue_of_fetch_error hf)
  · exact (h.advancePc hrun).haltWith (recordTrue_of_rejected (fetch_ok.1 hf) hw)
  · exact (h.advancePc hrun).writeReg hrun _ _

/-- The record of a block that meets the invariant never says CorruptImage. -/
theorem BlockInv.faultKind_ne_corruptImage (h : BlockInv s) : s.faultKind ≠ .corruptImage := by
  obtain ⟨_, _, _, _, hclear, htrue⟩ := h
  intro hk
  cases hh : s.halted with
  | false => cases (hclear hh).1.symm.trans hk
  | true => simpa [recordTrue, hk] using htrue hh
end blockInv

/-- A cycle is never refused, so it leaves exactly the state the block is in after it. -/
theorem leaves_cycle_iff {P : State → Prop} {inp : HostInputs} {s : State} :
    Leaves P (cycle inp s) ↔ P (cycleState s inp) := by
  have hout : (∃ t, cycle inp s = .next t) ∨ ∃ f, cycle inp s = .fault f := by
    rcases cycle_cases inp s with ⟨_, e⟩ | ⟨_, _, e⟩ | ⟨_, _, _, e⟩
    · exact .inl ⟨_, e⟩
    · exact .inl ⟨_, e⟩
    · rw [e]; exact coreStep_next_or_fault s
  rcases hout with ⟨t, e⟩ | ⟨f, e⟩ <;> simp [cycleState, e, Leaves, settle]

/-- Settles O44: `step` is a cycle, and a cycle keeps the invariant in whatever state it leaves. -/
theorem everyStepKeepsTheInvariant : Obligations.EveryStepKeepsTheInvariant :=
  fun _ h => ⟨leaves_cycle_iff.2 (h.cycleState freeRun), fun inp => leaves_cycle_iff.2 (h.cycleState inp)⟩

/-- Settles O43: nothing is listed in the ROM of `State.reset`, and its configuration is legal. -/
theorem resetMeetsTheInvariant : Obligations.ResetMeetsTheInvariant :=
  blockInv_resetWith reset_memory_wf rfl legalTable_runner

/-- A constructed machine meets the invariant. -/
theorem blockInv_of_construct {cfg : Cfg} {image : List Byte} {s : State} (h : construct cfg image = .next s) :
    BlockInv s := by
  obtain ⟨hlen, htab, rfl⟩ := construct_next h
  exact blockInv_resetWith (memoryOfImage_wf _ _) (hlen ▸ memoryOfImage_within _ image) htab

/-- Settles O45, by induction over the inputs from the constructed machine. -/
theorem everyReachableStateMeetsTheInvariant : Obligations.EveryReachableStateMeetsTheInvariant := by
  intro cfg image s inps hs
  have hinv : BlockInv (runHost inps s) :=
    runHost_induction (fun _ inp h => h.cycleState inp) inps (blockInv_of_construct hs)
  refine ⟨hinv, ?_, hinv.faultKind_ne_corruptImage⟩
  obtain ⟨_, _, rfl⟩ := construct_next hs
  rw [runHost_cfg, resetWith_cfg]

/-! ### Alignment -/

/-- Adding a multiple of 4 modulo 2^32 leaves the two low bits (10_state.md R12). -/
theorem lowBits_add_four_mul (p : Word) (n : Nat) :
    (p + BitVec.ofNat 32 (4 * n)).extractLsb' 0 2 = p.extractLsb' 0 2 := by
  apply BitVec.eq_of_toNat_eq
  simp only [BitVec.extractLsb'_toNat, BitVec.toNat_add, BitVec.toNat_ofNat, Nat.shiftRight_zero]
  omega

@[simp] theorem lowBits_add_four (p : Word) : (p + 4#32).extractLsb' 0 2 = p.extractLsb' 0 2 :=
  lowBits_add_four_mul p 1

/-- The alignment invariant of 10_state.md R12: the reset vector and `pc` are aligned, and no MisalignedFetch is
recorded. -/
def AlignmentInv (s : State) : Prop :=
  s.cfg.resetVector.extractLsb' 0 2 = 0#2 ∧ s.pc.extractLsb' 0 2 = 0#2 ∧ s.faultKind ≠ .misalignedFetch

/-- A fetch at an aligned `pc` does not fail with MisalignedFetch. -/
theorem conditionKind_of_aligned_fetch_error {s : State} {c : FatalCondition} (hpc : s.pc.extractLsb' 0 2 = 0#2)
    (h : fetch s = .error c) : conditionKind c = .unmappedAddress ∨ conditionKind c = .outOfBounds := by
  rcases fetch_error h with ⟨hmis, _⟩ | ⟨_, _, rfl⟩ | ⟨_, _, rfl⟩
  · exact absurd hpc hmis
  · exact .inl rfl
  · exact .inr rfl

/-- Every cycle keeps the alignment invariant. -/
theorem AlignmentInv.cycleState {s : State} (h : AlignmentInv s) (inp : HostInputs) :
    AlignmentInv (cycleState s inp) := by
  obtain ⟨hvec, hpc, hk⟩ := h
  refine ⟨by rw [cycleState_cfg]; exact hvec, ?_⟩
  rcases cycleState_cases s inp with e | e | ⟨_, c, hf, e⟩ | ⟨_, w, _, _, e⟩ | ⟨_, w, _, _, e⟩ <;> rw [e]
  · exact ⟨hvec, FaultKind.noConfusion⟩
  · exact ⟨hpc, hk⟩
  · refine ⟨hpc, ?_⟩
    rcases conditionKind_of_aligned_fetch_error hpc hf with hc | hc <;> simp [hc]
  · exact ⟨by simpa using hpc, FaultKind.noConfusion⟩
  · exact ⟨by simpa using hpc, by simpa using hk⟩

/-- Settles O50. -/
theorem everyCycleKeepsPcAligned : Obligations.EveryCycleKeepsPcAligned :=
  fun _ inp hvec hpc hk => AlignmentInv.cycleState ⟨hvec, hpc, hk⟩ inp

/-- Settles O47: a constructed machine starts at its reset vector with a clear record. -/
theorem alignedResetVectorKeepsPcAligned : Obligations.AlignedResetVectorKeepsPcAligned := by
  intro cfg image s inps hs hvec
  obtain ⟨_, _, rfl⟩ := construct_next hs
  exact (runHost_induction (P := AlignmentInv) (fun _ inp h => h.cycleState inp) inps
    ⟨hvec, hvec, FaultKind.noConfusion⟩).2

/-! ### Registers are no input of a cycle -/

/-- `s` with another register file. -/
def State.withRegs (s : State) (r : Vector Word 32) : State := { s with regs := r }

/-- Two states that differ in registers only: the second is the first with another register file. -/
theorem sameButRegs_iff {s t : State} : SameButRegs s t ↔ ∃ r, t = s.withRegs r := by
  constructor
  · intro h
    have hs : t.withRegs s.regs = s := h
    exact ⟨t.regs, by rw [← hs]; rfl⟩
  · rintro ⟨r, rfl⟩
    rfl

section withRegs
variable {s : State} (r : Vector Word 32)

/-- A write of the same register in both keeps the relation, whatever the register held. -/
theorem sameButRegs_writeReg (i : RegIdx) (v : Word) : SameButRegs (writeReg i v s) (writeReg i v (s.withRegs r)) := by
  unfold writeReg
  split <;> rfl

/-- What is left after a raised condition is its halted state. -/
@[simp] theorem settle_raise (c : FatalCondition) (u s : State) : settle u (raise c s) = haltWith c s := by
  cases c <;> rfl

/-- A step sees a running block's `pc`, ROM and configuration alone, so it answers alike for another register file. -/
theorem sameButRegs_settle_step (hrun : s.halted = false) :
    SameButRegs (settle s (step s)) (settle (s.withRegs r) (step (s.withRegs r))) := by
  have hrun' : (s.withRegs r).halted = false := hrun
  have hfetch : fetch (s.withRegs r) = fetch s := fetch_congr rfl rfl rfl
  cases hf : fetch s with
  | error c =>
    rw [step_of_fetch_error hrun hf, step_of_fetch_error hrun' (hfetch.trans hf), settle_raise, settle_raise]
    rfl
  | ok w =>
    have hw := fetch_ok.1 hf
    have hw' := fetch_ok.1 (hfetch.trans hf)
    by_cases hop : w.extractLsb' 26 6 = luiOpcode
    · rw [step_of_fetches_lui hrun hw hop, step_of_fetches_lui hrun' hw' hop]
      exact sameButRegs_writeReg r _ _
    · rw [step_of_fetches_other hrun hw hop, step_of_fetches_other hrun' hw' hop, settle_raise, settle_raise]
      rfl
end withRegs

/-- An enabled cycle without reset is a step. -/
theorem cycle_of_enabled {inp : HostInputs} (hreset : inp.reset = false) (hen : inp.runEn = true) (s : State) :
    cycle inp s = step s := by
  simp [step, cycle, freeRun, hreset, hen]

/-- A cycle keeps two blocks equal but for their registers: reset and holding look at no register, a step neither. -/
theorem SameButRegs.cycleState {s t : State} (h : SameButRegs s t) (inp : HostInputs) :
    SameButRegs (cycleState s inp) (cycleState t inp) := by
  obtain ⟨r, rfl⟩ := sameButRegs_iff.1 h
  unfold Machine.cycleState
  rcases cycle_cases inp s with ⟨hreset, _⟩ | ⟨hreset, hhold, _⟩ | ⟨hreset, hrun, hen, _⟩
  · rw [cycle_of_reset hreset, cycle_of_reset hreset]
    rfl
  · rw [cycle_of_hold hreset hhold, cycle_of_hold (s := s.withRegs r) hreset hhold]
    rfl
  · rw [cycle_of_enabled hreset hen, cycle_of_enabled hreset hen]
    exact sameButRegs_settle_step r hrun

/-- Settles O7, by induction over the inputs. -/
theorem registersNeverSteerExecution : Obligations.RegistersNeverSteerExecution := by
  intro inps
  induction inps with
  | nil => exact fun _ _ h => h
  | cons inp inps ih => exact fun s t h => ih _ _ (h.cycleState inp)

end Sys2Proof.Machine
end

section
/-! SUPPORT. Runs of the core from construction: execution in sequence, and the end of a run
(40_fetch_decode_execute.md R86, 70_reset_and_hazards.md R143). -/

namespace Sys2Proof.Machine

/-! ### Runs as sequences of steps -/

/-- A run of `k + 1` steps that completes is a completed step and a run of `k`. -/
theorem run_succ_inv {k : Nat} {s t : State} (h : Host.Core.run Sys2Proof.core (k + 1) s = .next t) :
    ∃ u, step s = .next u ∧ Host.Core.run Sys2Proof.core k u = .next t := by
  rcases step_next_or_fault s with ⟨u, hu⟩ | ⟨f, hf⟩
  · exact ⟨u, hu, (run_succ_next k hu).symm.trans h⟩
  · cases (run_succ_fault k hf).symm.trans h

/-- What a completed step of a running block leaves of `pc`, the run state, the ROM and the parameters. -/
theorem step_next_frame {s t : State} (hrun : s.halted = false) (h : step s = .next t) :
    t.pc = s.pc + 4#32 ∧ t.halted = false ∧ t.rom = s.rom ∧ t.cfg = s.cfg := by
  obtain ⟨hpc, _, hh, _, _, _, hrom, hcfg⟩ := (stepTouchesNothingElse s hrun).1 t h
  exact ⟨hpc, hh, hrom, hcfg⟩

/-- Settles O27, by induction on the number of steps. -/
theorem executionIsStrictlySequential : Obligations.ExecutionIsStrictlySequential := by
  intro k
  induction k with
  | zero =>
    intro s t hrun h
    obtain rfl : s = t := Host.Outcome.next.inj h
    exact ⟨(BitVec.add_zero _).symm, hrun, rfl, rfl⟩
  | succ k ih =>
    intro s t hrun h
    obtain ⟨u, hu, ht⟩ := run_succ_inv h
    obtain ⟨hpc, hh, hrom, hcfg⟩ := step_next_frame hrun hu
    obtain ⟨hpc', hh', hrom', hcfg'⟩ := ih u t hh ht
    refine ⟨?_, hh', hrom'.trans hrom, hcfg'.trans hcfg⟩
    rw [hpc', hpc, BitVec.add_assoc, ← BitVec.ofNat_add, Nat.mul_succ, Nat.add_comm]

/-- A run of `n` steps completes, or one of its steps faults after those before it completed. -/
theorem run_completes_or_faults (n : Nat) (s : State) :
    (∃ t : State, Host.Core.run Sys2Proof.core n s = .next t) ∨
    ∃ (k : Nat) (t : State) (f : Fault), k < n ∧ Host.Core.run Sys2Proof.core k s = .next t ∧ step t = .fault f := by
  induction n generalizing s with
  | zero => exact .inl ⟨s, rfl⟩
  | succ n ih =>
    rcases step_next_or_fault s with ⟨u, hu⟩ | ⟨f, hf⟩
    · rw [run_succ_next n hu]
      rcases ih u with hdone | ⟨k, t, f, hk, ht, hf⟩
      · exact .inl hdone
      · exact .inr ⟨k + 1, t, f, by omega, (run_succ_next k hu).trans ht, hf⟩
    · exact .inr ⟨0, s, f, by omega, rfl, hf⟩

/-- Each step of a completed run fetched a `LUI` word, the step after `j` others from `pc + 4 j`. -/
theorem run_fetches_lui {n j : Nat} {s t : State} (hrun : s.halted = false)
    (h : Host.Core.run Sys2Proof.core n s = .next t) (hj : j < n) :
    ∃ w, load32 s.cfg.devices s.rom (s.pc + BitVec.ofNat 32 (4 * j)) = .ok w ∧ w.extractLsb' 26 6 = luiOpcode := by
  induction n generalizing s j with
  | zero => omega
  | succ n ih =>
    obtain ⟨u, hu, ht⟩ := run_succ_inv h
    cases j with
    | zero =>
      obtain ⟨w, hf, hw, _⟩ := coreStep_next ((step_of_running hrun).symm.trans hu)
      exact ⟨w, by simpa using (fetch_ok.1 hf).2, hw⟩
    | succ j =>
      obtain ⟨hpc, hh, hrom, hcfg⟩ := step_next_frame hrun hu
      have haddr : u.pc + BitVec.ofNat 32 (4 * j) = s.pc + BitVec.ofNat 32 (4 * (j + 1)) := by
        rw [hpc, BitVec.add_assoc, ← BitVec.ofNat_add, Nat.mul_succ, Nat.add_comm]
      rw [← haddr, ← hrom, ← hcfg]
      exact ih hh ht (by omega)

/-! ### Words of an image at base 0 -/

/-- The primary opcode of a loaded word is in its fourth byte (20_memory.md R41). -/
theorem op_of_load32 {ds : List Device} {rom : Memory} {addr w : Word} (h : load32 ds rom addr = .ok w) :
    w.extractLsb' 26 6 = (readByte rom (addr.toNat + 3)).extractLsb' 2 6 := by
  obtain ⟨_, _, _, _, hop⟩ := wordsAreLittleEndian.1 ds rom addr w h
  exact hop

/-- The image that 70_reset_and_hazards.md R143 excepts: the whole 4 GiB, and each of its words a `LUI`. -/
def AllSpaceIsLui (cfg : Cfg) (image : List Byte) : Prop :=
  cfg.biosBase = 0#32 ∧ cfg.biosSize = 2 ^ 32 ∧
    ∀ k b, k % 4 = 3 → image[k]? = some b → b.extractLsb' 2 6 = 0b001111#6

/-- A run from construction that completes more steps than the image has words went once round the whole space, and
each word it fetched was a `LUI`. -/
theorem allSpaceIsLui_of_long_run {cfg : Cfg} {image : List Byte} {t : State} (hlen : image.length = cfg.biosSize)
    (htab : legalTable cfg.devices = true) (hhw : cfg.thisHardware = true)
    (h : Host.Core.run Sys2Proof.core (cfg.biosSize / 4 + 1)
      (State.resetWith cfg (memoryOfImage cfg.biosBase.toNat image)) = .next t) : AllSpaceIsLui cfg image := by
  have hvec : cfg.resetVector = cfg.biosBase := by simpa [Cfg.thisHardware] using hhw
  have hword : ∀ j, j < cfg.biosSize / 4 + 1 → ∃ w, load32 cfg.devices (memoryOfImage cfg.biosBase.toNat image)
      (cfg.biosBase + BitVec.ofNat 32 (4 * j)) = .ok w ∧ w.extractLsb' 26 6 = luiOpcode := by
    intro j hj
    simpa [hvec] using run_fetches_lui rfl h hj
  obtain ⟨_, hend⟩ := legalTable_devices_iff.1 htab
  have hspace : cfg.biosBase = 0#32 ∧ cfg.biosSize = 2 ^ 32 := by
    obtain ⟨w, hw, _⟩ := hword (cfg.biosSize / 4) (Nat.lt_succ_self _)
    obtain ⟨_, d, hd, hc, hs⟩ := load32_ok hw
    obtain rfl := List.mem_singleton.1 hd
    obtain ⟨hb, _⟩ := contains_iff.1 hc
    rw [← BitVec.toNat_inj]
    simp only [BitVec.toNat_add, BitVec.toNat_ofNat] at hb hs ⊢
    omega
  obtain ⟨hbase, hsize⟩ := hspace
  refine ⟨hbase, hsize, fun k b hk hb => ?_⟩
  obtain ⟨hklt, _⟩ := List.getElem?_eq_some_iff.1 hb
  obtain ⟨w, hw, hop⟩ := hword (k / 4) (by omega)
  have haddr : (cfg.biosBase + BitVec.ofNat 32 (4 * (k / 4))).toNat + 3 = cfg.biosBase.toNat + k := by
    rw [hbase, BitVec.zero_add, BitVec.toNat_ofNat, BitVec.toNat_zero]
    omega
  rw [op_of_load32 hw, haddr, readByte_memoryOfImage_of_getElem? _ hb] at hop
  exact hop

/-- A running block whose `pc` is aligned faults by UnhandledInstruction, UnmappedAddress or OutOfBounds only. -/
theorem faultKind_of_aligned_step {s : State} {f : Fault} (hrun : s.halted = false) (hpc : s.pc.extractLsb' 0 2 = 0#2)
    (h : step s = .fault f) :
    (faultState f).faultKind = .unhandledInstruction ∨ (faultState f).faultKind = .unmappedAddress ∨
      (faultState f).faultKind = .outOfBounds := by
  rcases coreStep_fault ((step_of_running hrun).symm.trans h) with ⟨c, hc, e⟩ | ⟨w, _, _, e⟩ <;>
    rw [e, haltWith_faultKind]
  · exact .inr (conditionKind_of_aligned_fetch_error hpc hc)
  · exact .inl rfl

/-- Settles O48: a run of one step more than the image has words cannot complete, so one of its steps faults. -/
theorem runEndsWithinTheImageUnlessAllSpaceIsLui : Obligations.RunEndsWithinTheImageUnlessAllSpaceIsLui := by
  intro cfg image s hs hhw hnot
  obtain ⟨hlen, htab, rfl⟩ := construct_next hs
  rcases run_completes_or_faults (cfg.biosSize / 4 + 1) (State.resetWith cfg (memoryOfImage cfg.biosBase.toNat image))
    with ⟨t, ht⟩ | ⟨k, t, f, hk, ht, hf⟩
  · exact absurd (allSpaceIsLui_of_long_run hlen htab hhw ht) hnot
  · obtain ⟨hpc, hrun, _⟩ := executionIsStrictlySequential k _ t rfl ht
    refine ⟨k, t, f, by omega, ht, hf, fun hvec => faultKind_of_aligned_step hrun ?_ hf⟩
    rw [hpc, lowBits_add_four_mul]
    exact hvec

/-- In the excepted machine every aligned step completes: its word lies in the device and is a `LUI`. -/
theorem step_next_of_allSpaceIsLui {cfg : Cfg} {image : List Byte} {s : State} (hall : AllSpaceIsLui cfg image)
    (hlen : image.length = cfg.biosSize) (hcfg : s.cfg = cfg) (hrom : s.rom = memoryOfImage cfg.biosBase.toNat image)
    (hrun : s.halted = false) (hpc : s.pc.extractLsb' 0 2 = 0#2) : ∃ t, step s = .next t := by
  obtain ⟨hbase, hsize, hlui⟩ := hall
  have hlt := s.pc.isLt
  have hlow : s.pc.toNat % 4 = 0 := by
    have := congrArg BitVec.toNat hpc
    simpa [BitVec.extractLsb'_toNat] using this
  have hb0 : cfg.biosBase.toNat = 0 := by rw [hbase]; rfl
  have hc : contains { base := cfg.biosBase, size := cfg.biosSize, kind := .rom } s.pc = true :=
    contains_iff.2 (by simp only [hb0, hsize]; omega)
  have hf := fetches_of_contains hpc (by rw [hcfg]; exact List.mem_singleton.2 rfl) hc
    (by simp only [hb0, hsize]; omega)
  refine ⟨_, step_of_fetches_lui hrun hf ?_⟩
  have hk : s.pc.toNat + 3 < image.length := by omega
  have hbyte : readByte s.rom (s.pc.toNat + 3) = image[s.pc.toNat + 3] := by
    rw [hrom, hb0]
    simpa using readByte_memoryOfImage 0 image _ hk
  rw [op_of_load32 hf.2, hbyte]
  exact hlui _ _ (by omega) (List.getElem?_eq_getElem hk)

/-- Settles O49: no step of a run of the excepted machine faults, since `pc` stays aligned. -/
theorem degenerateImageRunsForEver : Obligations.DegenerateImageRunsForEver := by
  intro cfg image s hs hhw hbase hsize hlui k
  obtain ⟨hlen, _, rfl⟩ := construct_next hs
  rcases run_completes_or_faults k (State.resetWith cfg (memoryOfImage cfg.biosBase.toNat image))
    with hdone | ⟨j, t, f, _, ht, hf⟩
  · exact hdone
  · obtain ⟨hpc, hrun, hrom, hcfg⟩ := executionIsStrictlySequential j _ t rfl ht
    have hvec : cfg.resetVector = 0#32 := by simpa [Cfg.thisHardware, hbase] using hhw
    have hal : t.pc.extractLsb' 0 2 = 0#2 := by
      rw [hpc, lowBits_add_four_mul, resetWith_pc, hvec]
      rfl
    obtain ⟨u, hu⟩ := step_next_of_allSpaceIsLui ⟨hbase, hsize, hlui⟩ hlen hcfg hrom hrun hal
    cases hu.symm.trans hf

end Sys2Proof.Machine
end
